-- ==== Sys2Proof/Word.lean ====
section
/-!
DEFINITION. The bit-vector types of the core (spec/00_scope.md, parameter table: VW = 12, BW = 8,
PW = 8; spec/30_encoding.md rules R53 and R54: the 11-bit CMD word and the 13-bit VBUS word).
-/

namespace Sys2Proof

/-- A 12-bit value, unsigned (R8). -/
abbrev Value := BitVec 12

/-- An input byte, or the 8-bit `pending_value` register (R15). -/
abbrev Byte := BitVec 8

/-- The 8-bit index argument of RDTOP and RDLAST, unsigned 0..255 (R56). -/
abbrev Index := BitVec 8

/-- A word on the `cmd` port (R53). -/
abbrev CmdWord := BitVec 11

/-- A word on the internal bus between the unpacker and the trackers (R54). -/
abbrev VbusWord := BitVec 13

/-- One slot of `top` or `last`: a 12-bit value, or no value (R34). -/
abbrev Slot := Option Value

end Sys2Proof
end

