-- ==== Sys2Proof/Config.lean ====
section
/-!
DEFINITION. What is fixed when a core is built: the capacity K (spec/00_scope.md rules R5 and R6) and
the widths derived from it. Also the two values the spec leaves open (R34), as constants without a body.
-/

namespace Sys2Proof

/-- The construction parameters of one core. K is kept as `K - 1` in 0..255, so that a capacity
outside the legal range 1..256 (R6, V9) cannot be written down (DESIGN CHOICE, assumption 1). -/
structure Config where
  kMinusOne : Fin 256
deriving DecidableEq, Repr

/-- The capacity K of both collections (R5, R6). -/
def Config.K (c : Config) : Nat := c.kMinusOne.val + 1

/-- The default core: K = 32 (R5). -/
def Config.standard : Config := ⟨31⟩

/-- The core of a given capacity; a capacity outside 1..256 is refused (R6). -/
def Config.ofK (k : Nat) : Option Config :=
  if h : 1 ≤ k ∧ k ≤ 256 then some ⟨⟨k - 1, by omega⟩⟩ else none

/-- The least `b` with `n ≤ 2 ^ b`, for the sizes a core can have (`n ≤ 257`). -/
def clog2 (n : Nat) : Nat := ((List.range 10).find? fun b => n ≤ 2 ^ b).getD 9

/-- IW, the width of an index into an array and of `last_cursor` (spec/00_scope.md, parameter table). -/
def Config.iw (c : Config) : Nat := max 1 (clog2 c.K)

/-- CW, the width of `top_count` and `last_count` (spec/00_scope.md, parameter table). -/
def Config.cw (c : Config) : Nat := clog2 (c.K + 1)

/-- FREE VALUE (R34, V1; DESIGN CHOICE, assumption 4): what a read of slot `i` of `top` gives while the slot holds no
value. No rule makes such a read in a state a run reaches. -/
opaque Config.unwrittenTop : Nat → Value

/-- FREE VALUE (R34, V1; DESIGN CHOICE, assumption 4): the same for slot `i` of `last`. -/
opaque Config.unwrittenLast : Nat → Value

end Sys2Proof
end

