-- ==== Sys2Proof/Syntax.lean ====
section
/-!
DEFINITION. The operations of the core, one constructor for each row of spec/opcode_table.json
(spec/30_encoding.md rule R58; spec/44_control.md rule R113 says the list is complete).
-/

namespace Sys2Proof

/-- The operations: five commands of the command port and the two micro-operations of the internal bus. -/
inductive Instr where
  /-- NOP, its argument ignored (R57, R109). -/
  | nop
  /-- FEED b (R55, R67). -/
  | feed (b : Byte)
  /-- RDTOP i (R56, R100). -/
  | rdtop (i : Index)
  /-- RDLAST i (R56, R103). -/
  | rdlast (i : Index)
  /-- CLR, its argument ignored (R57, R110). -/
  | clr
  /-- CONSIDER v, a micro-operation (R77). -/
  | consider (v : Value)
  /-- RECORD v, a micro-operation (R92). -/
  | record (v : Value)
deriving DecidableEq, Repr

end Sys2Proof
end

