-- ==== Sys2Proof/WellFormed.lean ====
section
/-!
DEFINITION. The checks on terms that the types do not already make. Every operand field has exactly the
width of its encoding, so an operand cannot be out of range; what is left is which operations may stand on
the command port (spec/30_encoding.md rule R64; spec/44_control.md rule R113), which capacities are
legal (spec/00_scope.md rule R6), and which table words lie inside their format (R53, R54).
-/

namespace Sys2Proof

/-- May the host present this operation on the command port? The micro-operations "cannot appear in a
script because they have no CMD encoding" (R64). -/
def Instr.presentable : Instr → Bool
  | .nop => true
  | .feed _ => true
  | .rdtop _ => true
  | .rdlast _ => true
  | .clr => true
  | .consider _ => false
  | .record _ => false

/-- Is `k` a legal capacity (R6)? -/
def legalK (k : Nat) : Bool := decide (1 ≤ k) && decide (k ≤ 256)

/-- Is `w` a word of format CMD, with no bit above bit 10 (R53)? -/
def isCmdNumber (w : Nat) : Bool := decide (w < 2 ^ 11)

/-- Is `w` a word of format VBUS that carries a value: bit 12 set and no bit above it (R54)? -/
def isVbusNumber (w : Nat) : Bool := decide (2 ^ 12 ≤ w) && decide (w < 2 ^ 13)

end Sys2Proof
end

