-- ==== Sys2Proof/Decode.lean ====
section
/-!
DEFINITION. The decoder and the encoder of the two formats (spec/30_encoding.md rules R53 to R60).
The decoder is total: an 11-bit CMD word is one of the five commands or a reserved opcode, rejected by
name; a 13-bit VBUS word is the micro-operations it causes.
-/

namespace Sys2Proof

/-- Why a CMD word is no command. -/
inductive DecodeError where
  /-- One of the opcodes 3'b101, 3'b110, 3'b111 (R59). -/
  | reservedOpcode (op : BitVec 3)
deriving DecidableEq, Repr

/-- The opcode field of a CMD word, bits 10:8 (R53). -/
def opField (w : CmdWord) : BitVec 3 := w.extractLsb' 8 3

/-- The argument field of a CMD word, bits 7:0 (R53). -/
def argField (w : CmdWord) : BitVec 8 := w.extractLsb' 0 8

/-- The decoder of the command port (R58, R59, R60). -/
def decodeCmd (w : CmdWord) : Except DecodeError Instr :=
  if opField w = 0b000#3 then .ok .nop
  else if opField w = 0b001#3 then .ok (.feed (argField w))
  else if opField w = 0b010#3 then .ok (.rdtop (argField w))
  else if opField w = 0b011#3 then .ok (.rdlast (argField w))
  else if opField w = 0b100#3 then .ok .clr
  else .error (.reservedOpcode (opField w))

/-- The `v_valid` bit of a VBUS word, bit 12 (R54). -/
def vbusValid (w : VbusWord) : Bool := w.getLsbD 12

/-- The value field of a VBUS word, bits 11:0 (R54). -/
def vbusValue (w : VbusWord) : Value := w.extractLsb' 0 12

/-- The VBUS word of a completed value, and of none: `v_valid` = 0 and `v` = 0 (R54). -/
def vbusOf : Option Value → VbusWord
  | some v => 1#1 ++ v
  | none => 0

/-- The micro-operations a VBUS word causes in its step: one CONSIDER and one RECORD of the same value
when `v_valid` = 1, none when it is 0 (R54, R58). -/
def decodeVbus (w : VbusWord) : List Instr :=
  if vbusValid w then [.consider (vbusValue w), .record (vbusValue w)] else []

/-- The word of a CMD instruction from its opcode and argument (R53). -/
def cmdWord (op : BitVec 3) (arg : BitVec 8) : CmdWord := op ++ arg

/-- The encoded form of an operation: a CMD word or a VBUS word. -/
inductive Encoded where
  | cmd (w : CmdWord)
  | vbus (w : VbusWord)
deriving DecidableEq, Repr

/-- The encoder (R58, R64): the assembler emits a zero argument for NOP and CLR (R57). -/
def encode : Instr → Encoded
  | .nop => .cmd (cmdWord 0b000 0)
  | .feed b => .cmd (cmdWord 0b001 b)
  | .rdtop i => .cmd (cmdWord 0b010 i)
  | .rdlast i => .cmd (cmdWord 0b011 i)
  | .clr => .cmd (cmdWord 0b100 0)
  | .consider v => .vbus (vbusOf (some v))
  | .record v => .vbus (vbusOf (some v))

/-- The CMD word of a command; a micro-operation has none (R64). -/
def encodeCmd (i : Instr) : Option CmdWord :=
  match encode i with
  | .cmd w => some w
  | .vbus _ => none

/-- The number of an encoded operation, bit 0 the least significant, as spec/opcode_table.json counts. -/
def encodeNat (i : Instr) : Nat :=
  match encode i with
  | .cmd w => w.toNat
  | .vbus w => w.toNat

/-- The row of spec/opcode_table.json an operation belongs to: its width in bits, its match and its mask. -/
def tableRow : Instr → Nat × Nat × Nat
  | .nop => (11, 0x000, 0x700)
  | .feed _ => (11, 0x100, 0x700)
  | .rdtop _ => (11, 0x200, 0x700)
  | .rdlast _ => (11, 0x300, 0x700)
  | .clr => (11, 0x400, 0x700)
  | .consider _ => (13, 0x1000, 0x1000)
  | .record _ => (13, 0x1000, 0x1000)

/-- The operation the decoder reads from a table word: the two formats share no number, since a VBUS word
that carries a value has bit 12 set and a CMD word has 11 bits. CONSIDER and RECORD share their word
(R58); the first micro-operation it causes is the answer (assumption 9). -/
def decodeTableWord (nbits w : Nat) : Option Instr :=
  let n := w % 2 ^ nbits
  if isCmdNumber n then
    match decodeCmd (BitVec.ofNat 11 n) with
    | .ok i => some i
    | .error _ => none
  else if isVbusNumber n then (decodeVbus (BitVec.ofNat 13 n)).head?
  else none

end Sys2Proof
end

