-- ==== Sys2Proof/Machine/State.lean ====
section
/-!
DEFINITION. The state of the core: the seven items of spec/10_state.md rule R13, the construction
parameters, and what stands at the ports (spec/30_encoding.md rules R51 to R54). Plain data.
-/

namespace Sys2Proof.Machine

open Sys2Proof

/-- `pending_bits`: 0, 4 or 8, and no other value is ever held (R14). The unused code 2'b11 (R29) cannot
be written down (V11; DESIGN CHOICE, assumption 13). -/
inductive PendingBits where
  /-- 0: Phase A is next. -/
  | zero
  /-- 4: Phase C is next. -/
  | four
  /-- 8: Phase B is next. -/
  | eight
deriving DecidableEq, Repr

/-- What the host drives on the input ports at one rising edge of `clk` (R51). -/
structure Edge where
  /-- `rst` -/
  rst : Bool
  /-- `cmd_valid` -/
  cmdValid : Bool
  /-- `cmd` -/
  cmd : CmdWord
deriving DecidableEq, Repr

/-- The state. `pendingBits` to `lastCount` are the seven architectural items (R13); the other fields are
the model's: the parameters, the ports and the bus. DESIGN CHOICE (assumptions 1, 3, 7, 8, 9, 10 and 12). -/
structure State where
  /-- The construction parameters; no step changes them (R5). Not state by R13, but an argument of every step
  (assumption 1). -/
  cfg : Config
  /-- `pending_bits` (R14). -/
  pendingBits : PendingBits
  /-- `pending_value` (R15). -/
  pendingValue : Byte
  /-- `top[0..K-1]` (R17). -/
  top : List Slot
  /-- `top_count` (R18). -/
  topCount : Nat
  /-- `last[0..K-1]` (R22). -/
  last : List Slot
  /-- `last_cursor` (R23). -/
  lastCursor : Nat
  /-- `last_count` (R24). -/
  lastCount : Nat
  /-- A word standing on the internal bus VBUS for the trackers to take (R54); 0 in every state a run
  reaches, since a FEED hands its value on within its own step (R41; assumption 9). -/
  vbus : VbusWord
  /-- The response of the latest step: `some v` or `none` (R62; assumption 10). -/
  rsp : Option Value
  /-- What the host will drive at the edges to come, the next one first; no command after the last
  (assumption 8). -/
  port : List Edge
  /-- For how many more edges the core holds `cmd_ready` low (R52, R138; assumption 7). -/
  busy : Nat
  /-- The implementation's further choices of such delays (R52, R138); none left means none delayed. -/
  stalls : List Nat
  /-- The command that was presented at the edge before and not taken because `cmd_ready` was 0
  (V12; assumption 6). -/
  waiting : Option CmdWord
deriving DecidableEq, Repr

/-- Why the machine stops with a fault: it never does. "The set of exception causes is empty" (R114);
"there is no behaviour in this core that a model should treat as fault or stuck"
(spec/93_implementation_defined.md). -/
inductive Fault where
deriving DecidableEq, Repr

/-- Why a step has no meaning. -/
inductive Refusal where
  /-- An operation with no meaning yet; raised by no arm of this model. Safe. -/
  | notModelled (mnemonic : String)
  /-- An accepted command with one of the reserved opcodes 5, 6, 7. Raised by `State.fetchEdge` (Machine/Ports.lean). The hardware
  acts as for NOP, and "a model should *refuse* them" (R59, D14, V4). Safe. -/
  | reservedOpcode (op : BitVec 3)
  /-- The host changed `cmd` while `cmd_valid` = 1 and `cmd_ready` = 0. Raised by `State.fetchEdge` (Machine/Ports.lean). The spec
  has a model refuse this violation of the handshake (V12). Safe. -/
  | cmdChangedWhileWaiting
deriving DecidableEq, Repr

/-- The core with parameters `c` right after reset (R32): five registers 0, every slot without a value
(R34; DESIGN CHOICE, assumption 3), nothing on the bus, no response, nothing presented at the ports, and no delay of
`cmd_ready` (assumptions 7 to 10). There is no state before reset (R33; assumption 2). -/
def State.resetFor (c : Config) : State where
  cfg := c
  pendingBits := .zero
  pendingValue := 0
  top := List.replicate c.K none
  topCount := 0
  last := List.replicate c.K none
  lastCursor := 0
  lastCount := 0
  vbus := 0
  rsp := none
  port := []
  busy := 0
  stalls := []
  waiting := none

/-- The machine right after reset, with the default K = 32 (R5, R32). -/
def State.reset : State := State.resetFor Config.standard

end Sys2Proof.Machine
end

