-- ==== Sys2Proof/Machine/Operands.lean ====
section
/-!
DEFINITION. The operand forms (spec/30_encoding.md section 3, spec/20_memory.md rules R35 and R44): how a
FEED byte is cut, how a value is put together, and which slot an index names.
-/

namespace Sys2Proof.Machine

open Sys2Proof

/-- The high 4 bits of a byte, `b[7:4]` (R55). -/
def highNibble (b : Byte) : BitVec 4 := b.extractLsb' 4 4

/-- The low 4 bits of a byte, `b[3:0]` (R55). -/
def lowNibble (b : Byte) : BitVec 4 := b.extractLsb' 0 4

/-- The Phase B value: the stored byte, then the new byte's high nibble (R70). -/
def phaseBValue (held b : Byte) : Value := held ++ highNibble b

/-- The Phase C value: the stored nibble, then the new byte (R71). -/
def phaseCValue (held b : Byte) : Value := lowNibble held ++ b

/-- The capacity K of this core (R5). -/
def State.K (s : State) : Nat := s.cfg.K

/-- The number `pending_bits` stands for (R14). -/
def PendingBits.bits : PendingBits → Nat
  | .zero => 0
  | .four => 4
  | .eight => 8

/-- The 2-bit code in which `pending_bits` is stored and shown (R29). -/
def PendingBits.code : PendingBits → BitVec 2
  | .zero => 0b00
  | .four => 0b01
  | .eight => 0b10

/-- The contents of slot `i` of an array; a slot without a value gives the free value of that slot. -/
def slotOr (free : Nat → Value) (a : List Slot) (i : Nat) : Value := (a.getD i none).getD (free i)

/-- `top[i]` (R17, R43): the logical and the physical index are the same. -/
def State.topSlot (s : State) (i : Nat) : Value := slotOr Config.unwrittenTop s.top i

/-- `last[p]`, by physical index (R22). -/
def State.lastSlot (s : State) (p : Nat) : Value := slotOr Config.unwrittenLast s.last p

end Sys2Proof.Machine
end

