-- ==== Sys2Proof/Machine/Flags.lean ====
section
/-!
DEFINITION. The core has no flag register and no operation sets a flag (spec/10_state.md rule R27). Here
are the four predicates over the state that the rules use, and the three status outputs (R28, R29).
-/

namespace Sys2Proof.Machine

open Sys2Proof

/-- `top_empty` (R27). -/
def State.topEmpty (s : State) : Bool := decide (s.topCount = 0)

/-- `top_full` (R27). -/
def State.topFull (s : State) : Bool := decide (s.topCount = s.K)

/-- `last_full` (R27). -/
def State.lastFull (s : State) : Bool := decide (s.lastCount = s.K)

/-- The three phases of a FEED. -/
inductive Phase where
  | a
  | b
  | c
deriving DecidableEq, Repr

/-- The phase the next FEED performs (R27, R68). -/
def State.phase (s : State) : Phase :=
  match s.pendingBits with
  | .zero => .a
  | .eight => .b
  | .four => .c

/-- The output `st_phase` (R28, R29). -/
def State.stPhase (s : State) : BitVec 2 := s.pendingBits.code

/-- The output `st_top_count`, CW bits wide (R28; the count itself is a `Nat`, assumption 12). -/
def State.stTopCount (s : State) : BitVec s.cfg.cw := BitVec.ofNat _ s.topCount

/-- The output `st_last_count`, CW bits wide (R28). -/
def State.stLastCount (s : State) : BitVec s.cfg.cw := BitVec.ofNat _ s.lastCount

end Sys2Proof.Machine
end

