-- ==== Sys2Proof/Machine/Ops.lean ====
section
/-!
DEFINITION. The named operations over the registers and the two arrays: the writes, the reset transition
(spec/70_reset_and_hazards.md rule R127), CONSIDER (spec/41_topk.md rule R77) and RECORD
(spec/42_lastk.md rule R92). The core has no exception to take and none to return from
(spec/60_exceptions.md rules R114, R119 and R120), so no operation here does either.
-/

namespace Sys2Proof.Machine

open Sys2Proof

/-! ### Writes -/

/-- Write the unpacker's two registers. -/
def State.setUnpacker (s : State) (p : PendingBits) (v : Byte) : State :=
  { s with pendingBits := p, pendingValue := v }

/-- Write the array `top` and `top_count`. -/
def State.setTop (s : State) (a : List Slot) (n : Nat) : State :=
  { s with top := a, topCount := n }

/-- Write the array `last`, `last_cursor` and `last_count`. -/
def State.setLast (s : State) (a : List Slot) (cursor n : Nat) : State :=
  { s with last := a, lastCursor := cursor, lastCount := n }

/-- Set the response of the step. -/
def State.setRsp (s : State) (r : Option Value) : State := { s with rsp := r }

/-- Put a word on the internal bus. -/
def State.setBus (s : State) (w : VbusWord) : State := { s with vbus := w }

/-- Set what stands at the ports: the edges to come, the delay of `cmd_ready`, and the waiting command. -/
def State.setPorts (s : State) (port : List Edge) (busy : Nat) (stalls : List Nat)
    (waiting : Option CmdWord) : State :=
  { s with port := port, busy := busy, stalls := stalls, waiting := waiting }

/-! ### The reset transition -/

/-- The reset transition (R127): the five registers become 0. No slot is written with a value; all of them
"now hold no value" (R34, R110; DESIGN CHOICE, assumption 3). The cause is the `rst` input or the command CLR (R129). -/
def State.resetTransition (s : State) : State :=
  ((s.setUnpacker .zero 0).setTop (List.replicate s.K none) 0).setLast (List.replicate s.K none) 0 0

/-! ### CONSIDER -/

/-- The scan of R77 step 3: from `idx`, go on while an entry is there and is smaller than `v`. The first
argument bounds the loop. -/
def scan (a : List Slot) (v : Value) (n : Nat) : Nat → Nat → Nat
  | 0, idx => idx
  | fuel + 1, idx =>
    if idx < n ∧ slotOr Config.unwrittenTop a idx < v then scan a v n fuel (idx + 1) else idx

/-- The insertion index (R81): the first index whose entry is not smaller than `v`, or `n`. -/
def insertionIndex (a : List Slot) (v : Value) (n : Nat) : Nat := scan a v n n 0

/-- The loop of R77 step 4: `for j = n down to idx + 1: top[j] <- top[j - 1]`. -/
def shiftUp (a : List Slot) (idx : Nat) : Nat → List Slot
  | 0 => a
  | j + 1 => if idx ≤ j then shiftUp (a.set (j + 1) (a.getD j none)) idx j else a

/-- The loop of R77 step 5: from `j`, `m` times `top[j - 1] <- top[j]`, `j` going up. -/
def shiftDown (a : List Slot) (j : Nat) : Nat → List Slot
  | 0 => a
  | m + 1 => shiftDown (a.set (j - 1) (a.getD j none)) (j + 1) m

/-- R77 step 4 on the array: make room at `idx`, then place `v` there (R82). -/
def growAt (a : List Slot) (idx n : Nat) (v : Value) : List Slot :=
  (shiftUp a idx n).set idx (some v)

/-- R77 step 5 on the array: drop the old minimum, close the gap, place `v` at `idx - 1` (R83). -/
def replaceAt (a : List Slot) (idx : Nat) (v : Value) : List Slot :=
  (shiftDown a 1 (idx - 1)).set (idx - 1) (some v)

/-- Step 2 of R77, the qualification test (R80), on an array of capacity `k` with `n` entries: strict at
capacity, and `top[0]` is not looked at while there is room. -/
def qualifies (k : Nat) (a : List Slot) (n : Nat) (v : Value) : Bool :=
  decide (n < k) || decide (slotOr Config.unwrittenTop a 0 < v)

/-- The five steps of R77 on an array of capacity `k` with `n` entries: the new array and count. -/
def considerArray (k : Nat) (a : List Slot) (n : Nat) (v : Value) : List Slot × Nat :=
  if n = 0 then (a.set 0 (some v), 1)
  else if !qualifies k a n v then (a, n)
  else if n < k then (growAt a (insertionIndex a v n) n v, n + 1)
  else (replaceAt a (insertionIndex a v n) v, n)

/-- CONSIDER v (R77). -/
def State.considered (s : State) (v : Value) : State :=
  s.setTop (considerArray s.K s.top s.topCount v).1 (considerArray s.K s.top s.topCount v).2

/-! ### RECORD -/

/-- RECORD v (R92): all reads see the state before the operation. -/
def State.recorded (s : State) (v : Value) : State :=
  s.setLast (s.last.set s.lastCursor (some v)) ((s.lastCursor + 1) % s.K) (min (s.lastCount + 1) s.K)

/-- What the trackers do with a VBUS word in one step: CONSIDER and RECORD of its value when `v_valid` = 1,
nothing when it is 0 (R54, R72). -/
def State.tracked (s : State) (w : VbusWord) : State :=
  if vbusValid w then (s.considered (vbusValue w)).recorded (vbusValue w) else s

/-- The response a VBUS word shows on the response port (R54). -/
def vbusResponse (w : VbusWord) : Option Value := if vbusValid w then some (vbusValue w) else none

/-! ### Readout -/

/-- The physical slot of a logical index of the last-K (R44). -/
def State.phys (s : State) (i : Nat) : Nat :=
  if s.lastFull then (s.lastCursor + i) % s.K else i

/-- The response of RDTOP i (R100, R101). -/
def State.readTop (s : State) (i : Nat) : Option Value :=
  if i < s.topCount then some (s.topSlot i) else none

/-- The response of RDLAST i (R103, R104). -/
def State.readLast (s : State) (i : Nat) : Option Value :=
  if i < s.lastCount then some (s.lastSlot (s.phys i)) else none

end Sys2Proof.Machine
end

