-- ==== Sys2Proof/Machine/Control.lean ====
section
/-!
DEFINITION. The commands NOP and CLR (spec/44_control.md).
-/

namespace Sys2Proof.Machine

open Sys2Proof

/-- NOP (R109): no state is written, the response is `none`. -/
def execNop (s : State) : Host.Outcome State Fault Refusal := .next (s.setRsp none)

/-- CLR (R110): the reset transition, the response is `none`. -/
def execClr (s : State) : Host.Outcome State Fault Refusal := .next (s.resetTransition.setRsp none)

end Sys2Proof.Machine
end

