-- ==== Sys2Proof/Machine/LastK.lean ====
section
/-!
DEFINITION. The Last-K Tracker's micro-operation RECORD (spec/42_lastk.md rule R92). It has no response of
its own, so the response of the step stays.
-/

namespace Sys2Proof.Machine

open Sys2Proof

/-- RECORD v (R92). -/
def execRecord (v : Value) (s : State) : Host.Outcome State Fault Refusal := .next (s.recorded v)

end Sys2Proof.Machine
end

