-- ==== Sys2Proof/Machine/Readout.lean ====
section
/-!
DEFINITION. The commands RDTOP and RDLAST (spec/43_readout.md): they answer and write no state.
-/

namespace Sys2Proof.Machine

open Sys2Proof

/-- RDTOP i (R100, R101). -/
def execRdtop (i : Index) (s : State) : Host.Outcome State Fault Refusal :=
  .next (s.setRsp (s.readTop i.toNat))

/-- RDLAST i (R103, R104). -/
def execRdlast (i : Index) (s : State) : Host.Outcome State Fault Refusal :=
  .next (s.setRsp (s.readLast i.toNat))

end Sys2Proof.Machine
end

