-- ==== Sys2Proof/Machine/TopK.lean ====
section
/-!
DEFINITION. The Top-K Tracker's micro-operation CONSIDER (spec/41_topk.md rule R77). It has no response of
its own, so the response of the step stays.
-/

namespace Sys2Proof.Machine

open Sys2Proof

/-- CONSIDER v (R77). -/
def execConsider (v : Value) (s : State) : Host.Outcome State Fault Refusal := .next (s.considered v)

end Sys2Proof.Machine
end

