-- ==== Sys2Proof/Machine/Unpacker.lean ====
section
/-!
DEFINITION. The Bit Unpacker and the command FEED (spec/40_unpacker.md).
-/

namespace Sys2Proof.Machine

open Sys2Proof

/-- What the unpacker leaves in its two registers and puts on the internal bus. -/
structure Unpacked where
  pendingBits : PendingBits
  pendingValue : Byte
  bus : VbusWord
deriving DecidableEq, Repr

/-- Phase A (R69): keep the byte, complete nothing. -/
def phaseA (b : Byte) : Unpacked := ⟨.eight, b, vbusOf none⟩

/-- Phase B (R70): complete a value, keep the low nibble. -/
def phaseB (held b : Byte) : Unpacked :=
  ⟨.four, (lowNibble b).setWidth 8, vbusOf (some (phaseBValue held b))⟩

/-- Phase C (R71): complete a value, keep nothing. -/
def phaseC (held b : Byte) : Unpacked := ⟨.zero, 0, vbusOf (some (phaseCValue held b))⟩

/-- The unpacker's part of a FEED: the phase is chosen by `pending_bits` alone (R68). -/
def State.unpack (s : State) (b : Byte) : Unpacked :=
  match s.phase with
  | .a => phaseA b
  | .b => phaseB s.pendingValue b
  | .c => phaseC s.pendingValue b

/-- FEED b (R67): the unpacker, then the trackers and the response from the bus, in one step (R41, R72). -/
def execFeed (b : Byte) (s : State) : Host.Outcome State Fault Refusal :=
  let u := s.unpack b
  .next (((s.setUnpacker u.pendingBits u.pendingValue).tracked u.bus).setRsp (vbusResponse u.bus))

end Sys2Proof.Machine
end

