-- ==== Sys2Proof/Machine/Dispatch.lean ====
section
/-!
DEFINITION. One arm for each operation of the core (spec/30_encoding.md rule R58): the operation level of
spec/00_scope.md rule R11.
-/

namespace Sys2Proof.Machine

open Sys2Proof

def exec (i : Instr) (s : State) : Host.Outcome State Fault Refusal :=
  match i with
  | .nop => Sys2Proof.Machine.execNop s
  | .feed b => Sys2Proof.Machine.execFeed b s
  | .rdtop idx => Sys2Proof.Machine.execRdtop idx s
  | .rdlast idx => Sys2Proof.Machine.execRdlast idx s
  | .clr => Sys2Proof.Machine.execClr s
  | .consider v => Sys2Proof.Machine.execConsider v s
  | .record v => Sys2Proof.Machine.execRecord v s

end Sys2Proof.Machine
end

