-- ==== Sys2Proof/Machine/Ports.lean ====
section
/-!
DEFINITION. The port level (spec/30_encoding.md rules R51 and R52, spec/44_control.md rule R111,
spec/70_reset_and_hazards.md rules R128 and R138): what one rising edge of `clk` does with what the host
drives, and how `cmd_ready` comes about. It gives the operations the edge performs; Step.lean runs them.
-/

namespace Sys2Proof.Machine

open Sys2Proof

/-- An edge on which the host drives no reset and no command. -/
def idleEdge : Edge := ⟨false, false, 0⟩

/-- An edge on which the host presents a command. -/
def commandEdge (w : CmdWord) : Edge := ⟨false, true, w⟩

/-- What the host drives at the coming edge; nothing when it has nothing more to say (R12, R111;
DESIGN CHOICE, assumption 8). -/
def State.edge (s : State) : Edge := s.port.headD idleEdge

/-- The output `cmd_ready`: 0 while `rst` = 1 (R128), and low for a finite time of the core's choice (R52,
R138). -/
def State.cmdReady (s : State) : Bool := !s.edge.rst && decide (s.busy = 0)

/-- Is a command accepted at the coming edge (R52)? -/
def State.accepts (s : State) : Bool := s.edge.cmdValid && s.cmdReady

/-- Does the host change the command it has to hold (V12)? `rst` = 1 takes the command away (R128), so the
host may present another one after it, and so does `cmd_valid` = 0 (DEDUCED, assumption 6). -/
def State.breaksHandshake (s : State) : Bool :=
  !s.edge.rst && s.edge.cmdValid && s.waiting.any fun w => decide (w ≠ s.edge.cmd)

/-- The command that waits for `cmd_ready` after the coming edge. -/
def State.nextWaiting (s : State) : Option CmdWord :=
  if s.edge.cmdValid && !s.edge.rst && !s.cmdReady then some s.edge.cmd else none

/-- How long `cmd_ready` stays low after the coming edge: one edge less, or the core's next choice
(DESIGN CHOICE, assumption 7). -/
def State.nextBusy (s : State) : Nat :=
  if s.busy = 0 then s.stalls.headD 0 else s.busy - 1

/-- The choices left after the coming edge. -/
def State.nextStalls (s : State) : List Nat := if s.busy = 0 then s.stalls.tail else s.stalls

/-- The edge passes at the ports: the next one stands there, and no response is shown yet. -/
def State.clocked (s : State) : State :=
  (s.setPorts s.port.tail s.nextBusy s.nextStalls s.nextWaiting).setRsp none

/-- What a step performs. -/
inductive Fetched where
  /-- These operations, one after the other in one step, from this state. -/
  | run (is : List Instr) (s : State)
  /-- None: the step has no meaning. -/
  | refuse (r : Refusal)
deriving DecidableEq, Repr

/-- What one rising edge performs: the reset transition when `rst` = 1, whatever else is driven (R118, R128);
the decoded command when one is accepted (R52); nothing when none is (R111). -/
def State.fetchEdge (s : State) : Fetched :=
  if s.edge.rst then .run [] s.clocked.resetTransition
  else if s.breaksHandshake then .refuse .cmdChangedWhileWaiting
  else if s.accepts then
    match decodeCmd s.edge.cmd with
    | .ok i => .run [i] s.clocked
    | .error (.reservedOpcode op) => .refuse (.reservedOpcode op)
  else .run [] s.clocked

/-- What the coming step performs. A word standing on the internal bus goes to the trackers first (R54); in
a run none does, since a FEED hands its value on in its own step (assumption 9). -/
def State.fetch (s : State) : Fetched :=
  if vbusValid s.vbus then .run (decodeVbus s.vbus) ((s.setBus 0).setRsp none) else s.fetchEdge

end Sys2Proof.Machine
end

