-- ==== Sys2Proof/Machine/Step.lean ====
section
/-!
DEFINITION. One step of the machine: one rising edge of `clk` (spec/30_encoding.md rule R52). One accepted
command is exactly one `exec` (spec/00_scope.md rule R11).
-/

namespace Sys2Proof.Machine

open Sys2Proof

/-- Run operations one after the other, stopping where one stops. -/
def execAll : List Instr → State → Host.Outcome State Fault Refusal
  | [], s => .next s
  | i :: is, s =>
    match exec i s with
    | .next t => execAll is t
    | .fault r => .fault r
    | .refused r => .refused r

/-- One step: what stands at the ports says which operations run. -/
def step (s : State) : Host.Outcome State Fault Refusal :=
  match s.fetch with
  | .run is t => execAll is t
  | .refuse r => .refused r

/-- `s` with the operation of a table word placed so that the next step runs it: a CMD word is presented at
the coming edge with the core ready, a VBUS word stands on the internal bus (assumptions 8 and 9). -/
def State.withFetchWord (s : State) (nbits w : Nat) : State :=
  if isVbusNumber (w % 2 ^ nbits) then s.setBus (BitVec.ofNat 13 (w % 2 ^ nbits))
  else (s.setBus 0).setPorts (commandEdge (BitVec.ofNat 11 (w % 2 ^ nbits)) :: s.port) 0 s.stalls none

end Sys2Proof.Machine
end

