-- ==== Sys2Proof/Machine/Response.lean ====
section
/-!
DEFINITION. The response port (spec/30_encoding.md rules R51, R52, R62 and R63): what `rsp_valid` and `rsp_data`
show during the cycle in which a command is accepted, as functions of the state before the edge and of `cmd`.
-/

namespace Sys2Proof.Machine

open Sys2Proof

/-- The response of a command in a state (R63). A micro-operation has none of its own (R77, R92). -/
def State.responseOf (s : State) : Instr → Option Value
  | .nop => none
  | .feed b => vbusResponse (s.unpack b).bus
  | .rdtop i => s.readTop i.toNat
  | .rdlast i => s.readLast i.toNat
  | .clr => none
  | .consider _ => none
  | .record _ => none

/-- The response shown during the coming cycle: that of the accepted command, or none (R51, R52). -/
def State.rspNow (s : State) : Option Value :=
  if s.accepts then
    match decodeCmd s.edge.cmd with
    | .ok i => s.responseOf i
    | .error _ => none
  else none

/-- The output `rsp_valid` (R51, R62). -/
def State.rspValid (s : State) : Bool := s.rspNow.isSome

/-- The output `rsp_data`: the value, or 0 when `rsp_valid` = 0 (R51, R62). -/
def State.rspData (s : State) : Value := s.rspNow.getD 0

end Sys2Proof.Machine
end

