-- ==== Sys2Proof/Machine/Script.lean ====
section
/-!
DEFINITION. Command scripts (spec/30_encoding.md rules R64 to R66): the notation's lines, the
pseudo-operations and their expansions, and what a host collects by running one. The core's two accessors
`topValues()` and `lastValues()` (spec/43_readout.md rule R99) are the pseudo-operations DUMPTOP and DUMPLAST.
-/

namespace Sys2Proof.Machine

open Sys2Proof

/-- The content of the Top-K collection, in its stored order (R17, R102). -/
def State.topValues (s : State) : List Value := (List.range s.topCount).map s.topSlot

/-- The content of the Last-K collection in logical order, oldest first (R44, R105). -/
def State.lastValues (s : State) : List Value :=
  (List.range s.lastCount).map fun i => s.lastSlot (s.phys i)

/-- The three FEEDs of `PUSH2 v w` (R65). -/
def push2Bytes (v w : Value) : List Byte :=
  [v.extractLsb' 4 8, v.extractLsb' 0 4 ++ w.extractLsb' 8 4, w.extractLsb' 0 8]

/-- A line of a script: an operation or a pseudo-operation (R64, R65). -/
inductive Line where
  | op (i : Instr)
  | feeds (bs : List Byte)
  | push2 (v w : Value)
  | dumpTop
  | dumpLast
deriving DecidableEq, Repr

/-- The commands of FEEDS (R65). -/
def feedAll (bs : List Byte) : List Instr := bs.map Instr.feed

/-- The commands of DUMPTOP, as many as `st_top_count` says (R65, R102). -/
def State.dumpTop (s : State) : List Instr :=
  (List.range s.stTopCount.toNat).map fun i => Instr.rdtop (BitVec.ofNat 8 i)

/-- The commands of DUMPLAST, as many as `st_last_count` says (R65, R105). -/
def State.dumpLast (s : State) : List Instr :=
  (List.range s.stLastCount.toNat).map fun i => Instr.rdlast (BitVec.ofNat 8 i)

/-- The commands a line expands to in a state; none where the line is not legal: a micro-operation cannot
appear in a script (R64), and PUSH2 is legal only when `pending_bits` = 0 (R65). -/
def Line.expand (l : Line) (s : State) : Option (List Instr) :=
  match l with
  | .op i => if i.presentable then some [i] else none
  | .feeds bs => some (feedAll bs)
  | .push2 v w => if s.pendingBits = .zero then some (feedAll (push2Bytes v w)) else none
  | .dumpTop => some s.dumpTop
  | .dumpLast => some s.dumpLast

/-- The text of an operation in the script notation (R64); micro-operations as in the traces. -/
def asmText : Instr → String
  | .nop => "NOP"
  | .feed b => "FEED " ++ toString b.toNat
  | .rdtop i => "RDTOP " ++ toString i.toNat
  | .rdlast i => "RDLAST " ++ toString i.toNat
  | .clr => "CLR"
  | .consider v => "CONSIDER " ++ toString v.toNat
  | .record v => "RECORD " ++ toString v.toNat

/-- Run commands one after the other and collect their responses (R62, R63). -/
def runResponses : List Instr → State → Host.Outcome (List (Option Value) × State) Fault Refusal
  | [], s => .next ([], s)
  | i :: is, s =>
    match exec i s with
    | .fault r => .fault r
    | .refused r => .refused r
    | .next t =>
      match runResponses is t with
      | .fault r => .fault r
      | .refused r => .refused r
      | .next (rs, u) => .next (t.rsp :: rs, u)

/-- The edges on which a host presents these commands, one an edge; a micro-operation has no command word. -/
def presentAll (is : List Instr) : List Edge := (is.filterMap encodeCmd).map commandEdge

end Sys2Proof.Machine
end

