-- ==== Sys2Proof/Safety.lean ====
section
/-!
DEFINITION. What holds of every state a run reaches (the invariants of spec/10_state.md), and the functions
of a byte sequence that a whole run computes (spec/70_reset_and_hazards.md rule R142), written from the stream's
bits alone and not from the machine.
-/

namespace Sys2Proof.Safety

open Sys2Proof Sys2Proof.Machine

/-- R16: the unpacker's two registers fit each other. -/
abbrev UnpackerInv (s : State) : Prop :=
  (s.pendingBits = .zero → s.pendingValue = 0) ∧ (s.pendingBits = .four → s.pendingValue.toNat < 16)

/-- Exactly the slots below `n` of an array of `k` slots hold a value (R13, R34). -/
abbrev FilledTo (a : List Slot) (k n : Nat) : Prop :=
  a.length = k ∧ n ≤ k ∧ ∀ i < k, ((a.getD i none).isSome ↔ i < n)

/-- R19: the Top-K collection is non-decreasing. -/
abbrev Sorted (s : State) : Prop :=
  ∀ i < s.topCount, i + 1 < s.topCount → s.topSlot i ≤ s.topSlot (i + 1)

/-- R17 to R19 and R34: the array `top`. -/
abbrev TopInv (s : State) : Prop := FilledTo s.top s.K s.topCount ∧ Sorted s

/-- R22 to R25 and R34: the array `last` and its cursor. -/
abbrev LastInv (s : State) : Prop :=
  FilledTo s.last s.K s.lastCount ∧ s.lastCursor < s.K ∧ (s.lastCount < s.K → s.lastCursor = s.lastCount)

/-- Everything a run keeps between two steps: the three blocks' invariants, R26, and an empty bus (R41). -/
abbrev RunInv (s : State) : Prop :=
  UnpackerInv s ∧ TopInv s ∧ LastInv s ∧ s.topCount = s.lastCount ∧ s.vbus = 0

/-- Two states agree on the seven architectural items (R13) and on the parameters. -/
abbrev SameCore (s t : State) : Prop :=
  t.cfg = s.cfg ∧ t.pendingBits = s.pendingBits ∧ t.pendingValue = s.pendingValue ∧ t.top = s.top ∧
    t.topCount = s.topCount ∧ t.last = s.last ∧ t.lastCursor = s.lastCursor ∧ t.lastCount = s.lastCount

/-- The operations that write no state (R42, R109). -/
def readOnly : Instr → Bool
  | .nop => true
  | .rdtop _ => true
  | .rdlast _ => true
  | .feed _ => false
  | .clr => false
  | .consider _ => false
  | .record _ => false

/-- The micro-operation CONSIDER (R77). -/
def isConsider : Instr → Bool
  | .consider _ => true
  | .nop => false
  | .feed _ => false
  | .rdtop _ => false
  | .rdlast _ => false
  | .clr => false
  | .record _ => false

/-- What stands at the ports, and the bus, is the same in two states. -/
abbrev SamePorts (s t : State) : Prop :=
  t.port = s.port ∧ t.busy = s.busy ∧ t.stalls = s.stalls ∧ t.waiting = s.waiting ∧ t.vbus = s.vbus

/-- The two blocks of the Tracker are the same in two states. -/
abbrev SameTrackers (s t : State) : Prop :=
  t.top = s.top ∧ t.topCount = s.topCount ∧ t.last = s.last ∧ t.lastCursor = s.lastCursor ∧
    t.lastCount = s.lastCount

/-- The unpacker's two registers are the same in two states. -/
abbrev SameUnpacker (s t : State) : Prop :=
  t.pendingBits = s.pendingBits ∧ t.pendingValue = s.pendingValue

/-- The five registers and the arrays as the reset transition leaves them (R32, R34, R127). -/
abbrev Cleared (s : State) : Prop :=
  s.pendingBits = .zero ∧ s.pendingValue = 0 ∧ s.topCount = 0 ∧ s.lastCount = 0 ∧ s.lastCursor = 0 ∧
    s.top = List.replicate s.K none ∧ s.last = List.replicate s.K none

/-- How many entries of the Top-K collection are smaller than `v` (R81, R86). -/
def countBelow (s : State) (v : Value) : Nat :=
  ((List.range s.topCount).filter fun i => decide (s.topSlot i < v)).length

/-- How many entries of the Top-K collection are smaller than or equal to `v` (R86). -/
def countUpTo (s : State) (v : Value) : Nat :=
  ((List.range s.topCount).filter fun i => decide (s.topSlot i ≤ v)).length

/-- The comparator bit `lt[i]` (R89). -/
abbrev ltBit (s : State) (v : Value) (i : Nat) : Prop := i < s.topCount ∧ s.topSlot i < v

/-- The stream as one bit string, each byte's bit 7 first (R36). -/
def streamBits (bs : List Byte) : List Bool :=
  bs.flatMap fun b => (List.range 8).map fun i => b.getLsbD (7 - i)

/-- The unsigned number of a bit string, first bit most significant (R36). -/
def bitsToNat (l : List Bool) : Nat := l.foldl (fun n b => 2 * n + b.toNat) 0

/-- The values of a stream: its bits cut every 12, an incomplete last group left out (R36, R39, R74). -/
def streamValues (bs : List Byte) : List Value :=
  (List.range (8 * bs.length / 12)).map fun k =>
    BitVec.ofNat 12 (bitsToNat (((streamBits bs).drop (12 * k)).take 12))

/-- The `min k n` largest of `n` values in ascending order (R20). -/
def largest (k : Nat) (vs : List Value) : List Value :=
  (vs.insertionSort (· ≤ ·)).drop (vs.length - k)

/-- The last `min k n` of `n` values in order of arrival (R97). -/
def latest (k : Nat) (vs : List Value) : List Value := vs.drop (vs.length - k)

end Sys2Proof.Safety
end

