-- ==== Sys2Proof/Certificates/Slice0/Obligations.lean ====
section
/-!
DEFINITION. The statements about the core, from the numbered rules of spec/. Each holds for every capacity K of
1..256, since K is a field of the state's parameters and no statement fixes it.
-/

open Sys2Proof Sys2Proof.Machine Sys2Proof.Safety

/-! ### Encoding (spec/30_encoding.md) -/

/-- The decode examples of spec/95_test_vectors.md section 6, and one VBUS word of each kind (R54). -/
def Obligations.SpecExampleWordsDecode : Prop :=
  decodeCmd 0x000 = .ok .nop ∧ decodeCmd 0x0A5 = .ok .nop ∧ decodeCmd 0x100 = .ok (.feed 0x00) ∧
    decodeCmd 0x1AB = .ok (.feed 0xAB) ∧ decodeCmd 0x21F = .ok (.rdtop 31) ∧
    decodeCmd 0x31F = .ok (.rdlast 31) ∧ decodeCmd 0x400 = .ok .clr ∧ decodeCmd 0x4FF = .ok .clr ∧
    decodeCmd 0x500 = .error (.reservedOpcode 5) ∧ decodeCmd 0x6AB = .error (.reservedOpcode 6) ∧
    decodeCmd 0x7FF = .error (.reservedOpcode 7) ∧
    decodeVbus 0x1ABC = [.consider 0xABC, .record 0xABC] ∧ decodeVbus 0x0000 = []

/-- R60: each of the 2048 CMD words is exactly one of the five commands or reserved, by `cmd[10:8]` alone,
with the low eight bits as the argument; and a table number that lies in neither format is rejected. -/
def Obligations.DecoderIsTotalByOpcode : Prop :=
  (∀ nbits n, (2 ^ 11 ≤ n % 2 ^ nbits ∧ n % 2 ^ nbits < 2 ^ 12 ∨ 2 ^ 13 ≤ n % 2 ^ nbits) →
    decodeTableWord nbits n = none) ∧
  ∀ w : CmdWord,
    (w.toNat / 256 = 0 → decodeCmd w = .ok .nop) ∧
    (w.toNat / 256 = 1 → decodeCmd w = .ok (.feed (BitVec.ofNat 8 w.toNat))) ∧
    (w.toNat / 256 = 2 → decodeCmd w = .ok (.rdtop (BitVec.ofNat 8 w.toNat))) ∧
    (w.toNat / 256 = 3 → decodeCmd w = .ok (.rdlast (BitVec.ofNat 8 w.toNat))) ∧
    (w.toNat / 256 = 4 → decodeCmd w = .ok .clr) ∧
    (5 ≤ w.toNat / 256 → decodeCmd w = .error (.reservedOpcode (BitVec.ofNat 3 (w.toNat / 256))))

/-- Decoding an encoded operation gives it back, for every operation and every operand: a command through the
command port's decoder and through the table's numbering; a micro-operation as one of the two that its VBUS
word causes (R54, R58), since CONSIDER and RECORD share one pattern. The encoded numbers are those of R64's
table and of R58's patterns. -/
def Obligations.DecodeEncodeAgree : Prop :=
  (encodeNat .nop = 0x000 ∧ encodeNat .clr = 0x400 ∧
    (∀ b : Byte, encodeNat (.feed b) = 0x100 + b.toNat ∧ encodeNat (.rdtop b) = 0x200 + b.toNat ∧
      encodeNat (.rdlast b) = 0x300 + b.toNat) ∧
    ∀ v : Value, encodeNat (.consider v) = 0x1000 + v.toNat ∧ encodeNat (.record v) = 0x1000 + v.toNat) ∧
  ∀ i : Instr,
    (i.presentable = true → ∃ w, encode i = .cmd w ∧ decodeCmd w = .ok i ∧
      decodeTableWord 16 (encodeNat i) = some i) ∧
    (i.presentable = false → ∃ w v, encode i = .vbus w ∧ decodeVbus w = [.consider v, .record v] ∧
      i ∈ decodeVbus w ∧ decodeTableWord 16 (encodeNat i) = some (.consider v))

/-- The other direction: a CMD word that decodes to an operation is that operation's encoded word, or it is a
NOP or CLR word whose ignored argument the assembler would have made 0 (R57). -/
def Obligations.EncodeDecodeCanonical : Prop :=
  ∀ (w : CmdWord) (i : Instr), decodeCmd w = .ok i →
    i.presentable = true ∧
    (encodeCmd i = some w ∨
      ((i = .nop ∨ i = .clr) ∧ ∃ w', encodeCmd i = some w' ∧ w'.toNat = w.toNat / 256 * 256))

/-! ### Parameters and status outputs -/

/-- R5, R6: a core can be built exactly for 1 <= K <= 256, with that K, and the default is 32. -/
def Obligations.CapacityRange : Prop :=
  (∀ k, 1 ≤ k → k ≤ 256 → ∃ c, Config.ofK k = some c ∧ c.K = k) ∧
    (∀ k, (k = 0 ∨ 256 < k) → Config.ofK k = none) ∧ (∀ c : Config, 1 ≤ c.K ∧ c.K ≤ 256) ∧
    Config.standard.K = 32 ∧ State.reset.K = 32

/-- The parameter table of spec/00_scope.md section 5: IW = max(1, ceil(log2 K)) and CW = ceil(log2(K + 1)), each
said by the powers of two around K, and 5 and 6 at the default K. R28, R29: the status outputs show
`pending_bits / 4` and the two counts without loss, code 2'b11 never, and the cursor fits its register. -/
def Obligations.StatusOutputsShowState : Prop :=
  (∀ c : Config, 1 ≤ c.iw ∧ c.K ≤ 2 ^ c.iw ∧ (c.iw = 1 ∨ 2 ^ (c.iw - 1) < c.K) ∧
    1 ≤ c.cw ∧ c.K + 1 ≤ 2 ^ c.cw ∧ 2 ^ (c.cw - 1) < c.K + 1) ∧
  Config.standard.iw = 5 ∧ Config.standard.cw = 6 ∧
  ∀ s, RunInv s → s.stPhase.toNat = s.pendingBits.bits / 4 ∧ s.stPhase ≠ 0b11 ∧
    s.stTopCount.toNat = s.topCount ∧ s.stLastCount.toNat = s.lastCount ∧
    s.lastCursor < 2 ^ s.cfg.iw ∧ s.topCount < 2 ^ s.cfg.cw

/-! ### The Bit Unpacker and FEED (spec/40_unpacker.md) -/

/-- R69: Phase A keeps the whole byte, sets `pending_bits` to 8 and emits nothing; nothing else changes. -/
def Obligations.FeedPhaseAKeepsByte : Prop :=
  ∀ s b, s.pendingBits = .zero →
    exec (.feed b) s = .next { s with pendingBits := .eight, pendingValue := b, rsp := none }

/-- R70: Phase B completes the stored byte followed by the new byte's high nibble, keeps the low nibble, and
hands the value to CONSIDER and RECORD (R67). -/
def Obligations.FeedPhaseBEmits : Prop :=
  ∀ s b, s.pendingBits = .eight → ∃ v t u,
    v.toNat = 16 * s.pendingValue.toNat + b.toNat / 16 ∧ exec (.feed b) s = .next t ∧
    t.pendingBits = .four ∧ t.pendingValue.toNat = b.toNat % 16 ∧ t.rsp = some v ∧
    execAll [.consider v, .record v] s = .next u ∧ SameTrackers u t ∧ SamePorts s t ∧ t.cfg = s.cfg

/-- R71: Phase C completes the stored nibble followed by the whole byte, clears both registers, and hands the
value to CONSIDER and RECORD (R67). That `pending_value` becomes 0 is the spec's own decision D8. -/
def Obligations.FeedPhaseCEmits : Prop :=
  ∀ s b, s.pendingBits = .four → ∃ v t u,
    v.toNat = 256 * (s.pendingValue.toNat % 16) + b.toNat ∧ exec (.feed b) s = .next t ∧
    t.pendingBits = .zero ∧ t.pendingValue = 0 ∧ t.rsp = some v ∧
    execAll [.consider v, .record v] s = .next u ∧ SameTrackers u t ∧ SamePorts s t ∧ t.cfg = s.cfg

/-- R68: the phase moves one position round the cycle per FEED, whatever the byte, and a FEED never stops. -/
def Obligations.FeedPhaseCycle : Prop :=
  ∀ s b, ∃ t, exec (.feed b) s = .next t ∧
    (s.pendingBits = .zero → t.pendingBits = .eight ∧ t.rsp = none) ∧
    (s.pendingBits = .eight → t.pendingBits = .four ∧ t.rsp.isSome = true) ∧
    (s.pendingBits = .four → t.pendingBits = .zero ∧ t.rsp.isSome = true)

/-- R36 and R76: from `pending_bits` = 0 three FEEDs emit two values that depend on the three bytes only, and
bring the unpacker back to (0, 0). -/
def Obligations.ThreeFeedsEmitTwoValues : Prop :=
  ∀ s b0 b1 b2, s.pendingBits = .zero → ∃ v w t,
    runResponses (feedAll [b0, b1, b2]) s = .next ([none, some v, some w], t) ∧
    v.toNat = 16 * b0.toNat + b1.toNat / 16 ∧ w.toNat = 256 * (b1.toNat % 16) + b2.toNat ∧
    t.pendingBits = .zero ∧ t.pendingValue = 0

/-- R65: `PUSH2 v w` is legal exactly when `pending_bits` = 0; then its three FEEDs emit exactly v, then w,
and leave `pending_bits` = 0. -/
def Obligations.Push2EmitsItsPair : Prop :=
  ∀ s v w,
    (s.pendingBits ≠ .zero → (Line.push2 v w).expand s = none) ∧
    (s.pendingBits = .zero → ∃ is t, (Line.push2 v w).expand s = some is ∧
      runResponses is s = .next ([none, some v, some w], t) ∧ t.pendingBits = .zero)

/-- R72: a value a FEED completes goes to both trackers, once, in the same step; a FEED that completes none
leaves both trackers. -/
def Obligations.FeedHandsValueToTrackers : Prop :=
  ∀ s t b, exec (.feed b) s = .next t →
    (∀ v, t.rsp = some v → ∃ u, execAll [.consider v, .record v] s = .next u ∧ SameTrackers u t) ∧
    (t.rsp = none → SameTrackers s t)

/-! ### The Top-K Tracker and CONSIDER (spec/41_topk.md) -/

/-- R79: into an empty collection the value goes as the sole entry; nothing else changes. -/
def Obligations.ConsiderIntoEmpty : Prop :=
  ∀ s v, s.topCount = 0 → s.top.length = s.K →
    exec (.consider v) s = .next { s with top := s.top.set 0 (some v), topCount := 1 } ∧
    (s.top.set 0 (some v)).getD 0 none = some v

/-- R81: the insertion index is the first index whose entry is not smaller than v, or n when there is none; in
a sorted collection it is the number of entries strictly smaller than v. -/
def Obligations.InsertionIndexIsFirstNotSmaller : Prop :=
  ∀ s v, insertionIndex s.top v s.topCount ≤ s.topCount ∧
    (∀ j < insertionIndex s.top v s.topCount, s.topSlot j < v) ∧
    (insertionIndex s.top v s.topCount < s.topCount →
      v ≤ s.topSlot (insertionIndex s.top v s.topCount)) ∧
    (Sorted s → insertionIndex s.top v s.topCount = countBelow s v)

/-- R82: below capacity CONSIDER shifts the entries at and after idx one slot up, places v at idx and counts one
more; slots above n, and everything else, stay. It covers the empty collection too (R85). -/
def Obligations.ConsiderGrows : Prop :=
  ∀ s v, s.top.length = s.K → s.topCount < s.K → ∃ a, a.length = s.K ∧
    exec (.consider v) s = .next { s with top := a, topCount := s.topCount + 1 } ∧
    ∀ j, (j < insertionIndex s.top v s.topCount → a.getD j none = s.top.getD j none) ∧
      (j = insertionIndex s.top v s.topCount → a.getD j none = some v) ∧
      (insertionIndex s.top v s.topCount < j → j ≤ s.topCount →
        a.getD j none = s.top.getD (j - 1) none) ∧
      (s.topCount < j → a.getD j none = s.top.getD j none)

/-- R83: at capacity a value greater than `top[0]` evicts it: the entries before idx - 1 take their upper
neighbour, v goes to idx - 1, the rest and the size stay. -/
def Obligations.ConsiderReplacesMinimum : Prop :=
  ∀ s v, s.top.length = s.K → s.topCount = s.K → s.topSlot 0 < v → ∃ a, a.length = s.K ∧
    exec (.consider v) s = .next { s with top := a } ∧ 1 ≤ insertionIndex s.top v s.topCount ∧
    ∀ j, (j + 1 < insertionIndex s.top v s.topCount → a.getD j none = s.top.getD (j + 1) none) ∧
      (j + 1 = insertionIndex s.top v s.topCount → a.getD j none = some v) ∧
      (insertionIndex s.top v s.topCount ≤ j → a.getD j none = s.top.getD j none)

/-- R84: at capacity a value not greater than `top[0]` changes nothing at all; a FEED that completes such a
value still records it. -/
def Obligations.ConsiderDiscards : Prop :=
  ∀ s v, s.topCount = s.K → v ≤ s.topSlot 0 →
    exec (.consider v) s = .next s ∧
    ∀ b t, exec (.feed b) s = .next t → t.rsp = some v →
      t.top = s.top ∧ t.topCount = s.topCount ∧ t.last = s.last.set s.lastCursor (some v)

/-- R80: a value enters the collection exactly if it qualifies: while the collection is not full, or when it is
strictly greater than the minimum. The collection then holds one copy of it more than before, equal entries
included; a value that does not qualify changes nothing. -/
def Obligations.QualificationTest : Prop :=
  ∀ s v, TopInv s → ∃ t, exec (.consider v) s = .next t ∧
    ((s.topCount < s.K ∨ s.topSlot 0 < v) → t.topValues.count v = s.topValues.count v + 1) ∧
    (¬ (s.topCount < s.K ∨ s.topSlot 0 < v) → t = s)

/-- R19: CONSIDER keeps the array's form and the collection sorted. -/
def Obligations.ConsiderKeepsSorted : Prop :=
  ∀ s v, TopInv s → ∃ t, exec (.consider v) s = .next t ∧ TopInv t

/-- R87: if the collection is the min(K, m) largest of the m values considered so far in ascending order, then
after CONSIDER v it is that of the m + 1 values. -/
def Obligations.ConsiderKeepsLargest : Prop :=
  ∀ s v vs, TopInv s → s.topValues = largest s.K vs →
    ∃ t, exec (.consider v) s = .next t ∧ t.topValues = largest s.K (vs ++ [v])

/-- R88: `top_count` never decreases, and once the collection is full its minimum never decreases, so a value
discarded once would be discarded later too. -/
def Obligations.ConsiderIsMonotone : Prop :=
  ∀ s v, TopInv s → ∃ t, exec (.consider v) s = .next t ∧ s.topCount ≤ t.topCount ∧
    (s.topCount = s.K → t.topCount = s.K ∧ s.topSlot 0 ≤ t.topSlot 0 ∧
      ∀ w, exec (.consider w) s = .next s → exec (.consider w) t = .next t)

/-- R78: CONSIDER never reads a slot at or beyond the count: two cores that agree on the entries have the same
entries afterwards. -/
def Obligations.ConsiderReadsOnlyEntries : Prop :=
  ∀ s s' v, s.top.length = s.K → s'.top.length = s'.K → s'.cfg = s.cfg → s'.topCount = s.topCount →
    s.topCount ≤ s.K → (∀ j < s.topCount, s'.top.getD j none = s.top.getD j none) →
    ∃ t t', exec (.consider v) s = .next t ∧ exec (.consider v) s' = .next t' ∧
      t'.topCount = t.topCount ∧ ∀ j < t.topCount, t'.top.getD j none = t.top.getD j none

/-- R86: growing and replacing at the number of entries smaller than v, or at the number of entries smaller than
or equal to v, leave the same array. -/
def Obligations.TieSideDoesNotMatter : Prop :=
  ∀ s v, TopInv s →
    (s.topCount < s.K →
      growAt s.top (countBelow s v) s.topCount v = growAt s.top (countUpTo s v) s.topCount v ∧
      exec (.consider v) s =
        .next { s with top := growAt s.top (countUpTo s v) s.topCount v, topCount := s.topCount + 1 }) ∧
    (s.topCount = s.K → s.topSlot 0 < v →
      replaceAt s.top (countBelow s v) v = replaceAt s.top (countUpTo s v) v ∧
      exec (.consider v) s = .next { s with top := replaceAt s.top (countUpTo s v) v })

/-- R89: the comparator form. The bits `lt[i]` are ones followed by zeros, their number is idx, and every slot's
next value is chosen by its own and its neighbour's bit as the rule's table says. -/
def Obligations.ComparatorFormAgrees : Prop :=
  ∀ s v, TopInv s → ∃ t, exec (.consider v) s = .next t ∧
    (∀ i j, i ≤ j → ltBit s v j → ltBit s v i) ∧
    insertionIndex s.top v s.topCount = countBelow s v ∧
    (s.topCount < s.K → t.topCount = s.topCount + 1 ∧ ∀ j,
      (j ≤ s.topCount → ltBit s v j → t.top.getD j none = s.top.getD j none) ∧
      (j ≤ s.topCount → ¬ ltBit s v j → (j = 0 ∨ ltBit s v (j - 1)) → t.top.getD j none = some v) ∧
      (j ≤ s.topCount → ¬ ltBit s v j → 0 < j → ¬ ltBit s v (j - 1) →
        t.top.getD j none = s.top.getD (j - 1) none) ∧
      (s.topCount < j → t.top.getD j none = s.top.getD j none)) ∧
    (s.topCount = s.K → ltBit s v 0 → t.topCount = s.K ∧ ∀ j < s.K,
      (¬ ltBit s v j → t.top.getD j none = s.top.getD j none) ∧
      (ltBit s v j → (j = s.K - 1 ∨ ¬ ltBit s v (j + 1)) → t.top.getD j none = some v) ∧
      (ltBit s v j → j < s.K - 1 → ltBit s v (j + 1) → t.top.getD j none = s.top.getD (j + 1) none)) ∧
    (s.topCount = s.K → ¬ ltBit s v 0 → t = s)

/-! ### The Last-K Tracker and RECORD (spec/42_lastk.md) -/

/-- R92 to R94: RECORD overwrites the slot at the cursor, whatever the value; the cursor goes from c to c + 1, or
from K - 1 to 0; the count goes up to K and stays; nothing else changes. -/
def Obligations.RecordOverwritesAtCursor : Prop :=
  ∀ s v, s.last.length = s.K → s.lastCursor < s.K → s.lastCount ≤ s.K → ∃ a, a.length = s.K ∧
    a.getD s.lastCursor none = some v ∧
    (∀ j, j ≠ s.lastCursor → a.getD j none = s.last.getD j none) ∧
    exec (.record v) s = .next { s with
      last := a
      lastCursor := if s.lastCursor + 1 < s.K then s.lastCursor + 1 else 0
      lastCount := if s.lastCount < s.K then s.lastCount + 1 else s.K }

/-- R95 to R97: if the buffer holds the last min(K, n) of the n values recorded so far, oldest first, then after
RECORD v it holds those of the n + 1 values; a full buffer drops exactly its oldest value. -/
def Obligations.RecordKeepsWindow : Prop :=
  ∀ s v vs, LastInv s → s.lastValues = latest s.K vs → ∃ t, exec (.record v) s = .next t ∧ LastInv t ∧
    t.lastValues = latest s.K (vs ++ [v]) ∧
    (s.lastCount = s.K → t.lastValues = s.lastValues.tail ++ [v]) ∧
    (s.lastCount < s.K → t.lastValues = s.lastValues ++ [v])

/-- R47 and D11: CONSIDER and RECORD act on disjoint state, so their relative order cannot be observed: any
interleaving of CONSIDERs and RECORDs ends in the state of all the CONSIDERs, then all the RECORDs. -/
def Obligations.ConsiderRecordOrderUnobservable : Prop :=
  ∀ (is : List Instr) (s : State), (∀ i ∈ is, i.presentable = false) → ∃ t, execAll is s = .next t ∧
    execAll (is.filter isConsider ++ is.filter fun i => !isConsider i) s = .next t

/-! ### Readout (spec/43_readout.md) -/

/-- R100, R101: RDTOP i answers the i-th entry when i < `top_count`, none otherwise, and writes no state. -/
def Obligations.RdtopAnswersEntry : Prop :=
  ∀ s i, TopInv s →
    (i.toNat < s.topCount → ∃ v, s.top.getD i.toNat none = some v ∧
      exec (.rdtop i) s = .next { s with rsp := some v }) ∧
    (s.topCount ≤ i.toNat → exec (.rdtop i) s = .next { s with rsp := none })

/-- R103, R104: RDLAST i answers the (i+1)-th oldest value when i < `last_count`: physical slot i before the
buffer is full, (cursor + i) mod K once it is; none otherwise; no state is written. -/
def Obligations.RdlastAnswersEntry : Prop :=
  ∀ s i, LastInv s →
    (i.toNat < s.lastCount → s.lastCount < s.K → ∃ v, s.last.getD i.toNat none = some v ∧
      exec (.rdlast i) s = .next { s with rsp := some v }) ∧
    (i.toNat < s.lastCount → s.lastCount = s.K → ∃ v,
      s.last.getD (if s.lastCursor + i.toNat < s.K then s.lastCursor + i.toNat
        else s.lastCursor + i.toNat - s.K) none = some v ∧
      exec (.rdlast i) s = .next { s with rsp := some v }) ∧
    (s.lastCount ≤ i.toNat → exec (.rdlast i) s = .next { s with rsp := none })

/-- R102: DUMPTOP's responses are the collection: `top_count` values in non-decreasing order. -/
def Obligations.DumpTopListsCollection : Prop :=
  ∀ s, TopInv s → ∃ u, runResponses s.dumpTop s = .next (s.topValues.map some, u) ∧ SameCore s u ∧
    s.topValues.length = s.topCount ∧ s.topValues.Pairwise (· ≤ ·)

/-- R105: DUMPLAST's responses are the last-K collection: `last_count` values, oldest first (R44). -/
def Obligations.DumpLastListsCollection : Prop :=
  ∀ s, LastInv s → ∃ u, runResponses s.dumpLast s = .next (s.lastValues.map some, u) ∧ SameCore s u ∧
    s.lastValues.length = s.lastCount

/-- R42, R106: any number of NOPs and reads, in any order, leave the state as it was, and a read repeated after
them gives the same response. -/
def Obligations.ReadsArePure : Prop :=
  ∀ is s i, (∀ j ∈ is, readOnly j = true) → readOnly i = true → ∃ r r',
    execAll is s = .next { s with rsp := r } ∧ exec i s = .next { s with rsp := r' } ∧
    execAll (is ++ [i]) s = .next { s with rsp := r' }

/-! ### Control and frames (spec/44_control.md) -/

/-- R109: in any state NOP leaves the state and answers none; it is the same transition as an edge on which the
host presents no command. -/
def Obligations.NopIsHold : Prop :=
  ∀ s, exec .nop s = .next { s with rsp := none } ∧
    (vbusValid s.vbus = false → s.edge.rst = false → s.edge.cmdValid = false →
      ∃ t, step s = .next t ∧ SameCore s t ∧ t.rsp = none)

/-- R110, R127: CLR zeroes the five registers from any state, leaves every slot without a value (R34; the model's
`none`, assumption 3), answers none and changes nothing else; it is idempotent, and changes nothing in the reset state. -/
def Obligations.ClrIsReset : Prop :=
  ∀ s, ∃ t, exec .clr s = .next t ∧ Cleared t ∧ t.rsp = none ∧ t.cfg = s.cfg ∧ SamePorts s t ∧
    exec .clr t = .next t ∧
    ∀ c, exec .clr (State.resetFor c) = .next (State.resetFor c)

/-- The frame of every operation: which of the seven items, of the ports and of the response it leaves. The
parameters and the ports stay in all of them; R21, R31, R72, R106. -/
def Obligations.FrameOfEveryOperation : Prop :=
  ∀ i s t, exec i s = .next t → t.cfg = s.cfg ∧ SamePorts s t ∧
    (readOnly i = true → SameCore s t) ∧
    (∀ b, i = .feed b → s.pendingBits = .zero → SameTrackers s t) ∧
    (∀ v, i = .consider v → SameUnpacker s t ∧ t.last = s.last ∧ t.lastCursor = s.lastCursor ∧
      t.lastCount = s.lastCount ∧ t.rsp = s.rsp) ∧
    (∀ v, i = .record v → SameUnpacker s t ∧ t.top = s.top ∧ t.topCount = s.topCount ∧ t.rsp = s.rsp)

/-- R21, R72: no operation but FEED and CLR moves the phase; no command but a FEED that completes a value, and
CLR, changes either tracker. -/
def Obligations.OnlyFeedAndClrChangeState : Prop :=
  ∀ i s t, exec i s = .next t →
    (t.pendingBits ≠ s.pendingBits → (∃ b, i = .feed b) ∨ i = .clr) ∧
    (i.presentable = true → ¬ SameTrackers s t → (∃ b v, i = .feed b ∧ t.rsp = some v) ∨ i = .clr) ∧
    (t.lastCursor ≠ s.lastCursor → (∃ b, i = .feed b) ∨ i = .clr ∨ ∃ v, i = .record v)

/-! ### The port level (spec/30_encoding.md, spec/70_reset_and_hazards.md) -/

/-- R11, R52: an accepted command that decodes to i makes the step exec i, on the state past the edge: the next
edge stands at the ports, the delay of `cmd_ready` is the core's next choice, and no response is shown yet. -/
def Obligations.StepRunsDecodedCommand : Prop :=
  ∀ s e rest i, vbusValid s.vbus = false → s.port = e :: rest → e.rst = false → e.cmdValid = true →
    s.busy = 0 → (s.waiting = none ∨ s.waiting = some e.cmd) → decodeCmd e.cmd = .ok i →
    step s = exec i { s with
      port := rest, busy := s.stalls.headD 0, stalls := s.stalls.tail, waiting := none, rsp := none }

/-- The model's own way to run a VBUS word (assumption 9): a value standing on the internal bus goes to CONSIDER
and RECORD in one step (R54), and the bus is then empty. -/
def Obligations.StepRunsBusWord : Prop :=
  ∀ s v, s.vbus = vbusOf (some v) →
    step s = execAll [.consider v, .record v] { s with vbus := 0, rsp := none }

/-- R118, R127, R128: on an edge with `rst` = 1 the reset transition happens whatever `cmd_valid`, `cmd` and the
delay are; `cmd_ready` is 0, the command is not accepted and the response is none. That no slot then holds a
value (R34) is written as `none` in every slot, the model's choice (assumption 3); that the edge releases a
waiting command is the model's too (assumption 6). -/
def Obligations.ResetWinsOverCommand : Prop :=
  ∀ s e rest, vbusValid s.vbus = false → s.port = e :: rest → e.rst = true →
    s.cmdReady = false ∧ s.accepts = false ∧
    ∃ t, step s = .next t ∧ Cleared t ∧ t.cfg = s.cfg ∧ t.port = rest ∧ t.rsp = none ∧ t.waiting = none

/-- R111: on an edge with `rst` = 0 on which no command is accepted, no register and no slot changes. The premise
on the waiting command leaves out the violation of the handshake that V12 has a model refuse. Which command waits
afterwards is the model's bookkeeping for V12 (assumption 6): the presented one when `cmd_ready` = 0, none when
`cmd_valid` = 0. -/
def Obligations.HoldWithoutAcceptance : Prop :=
  ∀ s, vbusValid s.vbus = false → s.edge.rst = false → (s.edge.cmdValid = false ∨ s.cmdReady = false) →
    (s.edge.cmdValid = false ∨ s.waiting = none ∨ s.waiting = some s.edge.cmd) →
    ∃ t, step s = .next t ∧ SameCore s t ∧ t.rsp = none ∧ t.port = s.port.tail ∧
      (s.edge.cmdValid = true → s.cmdReady = false → t.waiting = some s.edge.cmd) ∧
      (s.edge.cmdValid = false → t.waiting = none)

/-- R52, R59, V12: what a step refuses, and that it faults never (R114): exactly an accepted command with one of
the opcodes 5 to 7, and a command changed while it waits; every operation answers a next state (R141). -/
def Obligations.WhatAStepRefuses : Prop :=
  (∀ i s, ∃ t, exec i s = .next t) ∧
  ∀ s, vbusValid s.vbus = false → s.edge.rst = false →
    (s.edge.cmdValid = true → (∃ w, s.waiting = some w ∧ w ≠ s.edge.cmd) →
      step s = .refused .cmdChangedWhileWaiting) ∧
    ((s.waiting = none ∨ s.waiting = some s.edge.cmd) → s.edge.cmdValid = true → s.busy = 0 →
      5 ≤ s.edge.cmd.toNat / 256 →
      step s = .refused (.reservedOpcode (BitVec.ofNat 3 (s.edge.cmd.toNat / 256)))) ∧
    ((s.edge.cmdValid = false ∨ s.waiting = none ∨ s.waiting = some s.edge.cmd) →
      (s.edge.cmdValid = false ∨ s.busy ≠ 0 ∨ s.edge.cmd.toNat / 256 < 5) → ∃ t, step s = .next t)

/-- R52, R62, R63: the response a step leaves is the one the ports show during the cycle, a function of the state
before the edge and of `cmd`; `rsp_data` is 0 when `rsp_valid` is 0. -/
def Obligations.ResponseIsShownInItsCycle : Prop :=
  ∀ s t, vbusValid s.vbus = false → step s = .next t →
    t.rsp = s.rspNow ∧ s.rspValid = t.rsp.isSome ∧ (s.rspValid = false → s.rspData = 0) ∧
    (∀ v, t.rsp = some v → s.rspData = v)

/-- R11, R139: with the core always ready, a host that presents one command an edge makes the machine run exactly
those operations, one a step. -/
def Obligations.OneCommandIsOneStep : Prop :=
  ∀ (is : List Instr) (s : State) (rest : List Edge), vbusValid s.vbus = false → (∀ i ∈ is, i.presentable = true) →
    s.port = presentAll is ++ rest → s.busy = 0 → s.stalls = [] → s.waiting = none →
    Host.Core.run Sys2Proof.core is.length s = execAll is { s with port := rest }

/-- R138: a presented command that the host holds is accepted after the core's delay, whatever that finite delay
is, in a state whose seven items are those before; and it is performed in the step that accepts it. -/
def Obligations.PresentedCommandIsAccepted : Prop :=
  ∀ (s : State) (w : CmdWord) (i : Instr) (rest : List Edge), vbusValid s.vbus = false →
    s.port = List.replicate (s.busy + 1) (commandEdge w) ++ rest →
    (s.waiting = none ∨ s.waiting = some w) → decodeCmd w = .ok i →
    ∃ u, SameCore s u ∧ u.port = rest ∧ Host.Core.run Sys2Proof.core (s.busy + 1) s = exec i u

/-! ### Invariants (spec/10_state.md) -/

/-- R27, R32: the reset state satisfies the invariant, for every capacity, and the machine's reset is that of
K = 32; its registers hold the values the rule gives, no slot holds a value (assumption 3), and the four
predicates and the status outputs are as the rules say. -/
def Obligations.ResetHoldsInv : Prop :=
  (∀ c, RunInv (State.resetFor c) ∧ Cleared (State.resetFor c) ∧ (State.resetFor c).stPhase = 0b00 ∧
    (State.resetFor c).stTopCount = 0 ∧ (State.resetFor c).stLastCount = 0 ∧
    (State.resetFor c).topEmpty = true ∧ (State.resetFor c).topFull = false ∧
    (State.resetFor c).lastFull = false ∧ (State.resetFor c).phase = .a) ∧
    State.reset = State.resetFor Config.standard ∧ RunInv State.reset

/-- R14, R16, R19, R25, R26: every step keeps the invariant of the unpacker, of both arrays and their counts,
sortedness, the equality of the counts and the empty bus. -/
def Obligations.StepKeepsInv : Prop :=
  ∀ s t, RunInv s → step s = .next t → RunInv t

/-- R5, R10, R18, R24: no step changes K; a step counts at most one value more in each block, never above K, and a
count goes down only to the cleared state (whose slots are all `none` by the model's choice, assumption 3). -/
def Obligations.StepCountsMonotone : Prop :=
  ∀ s t, RunInv s → step s = .next t → t.cfg = s.cfg ∧
    t.topCount ≤ s.topCount + 1 ∧ t.topCount ≤ t.K ∧ (s.topCount ≤ t.topCount ∨ Cleared t) ∧
    t.lastCount ≤ s.lastCount + 1 ∧ t.lastCount ≤ t.K ∧ (s.lastCount ≤ t.lastCount ∨ Cleared t)

/-! ### A whole stream (spec/70_reset_and_hazards.md rule R142) -/

/-- R36, R39, R74, R142 (a) and (d): from `pending_bits` = 0, whatever the trackers hold, feeding any bytes answers
the stream's bits cut every 12, on the second and third of every three FEEDs, and leaves 8n mod 12 bits pending. -/
def Obligations.StreamIsCutEveryTwelveBits : Prop :=
  ∀ bs s, s.pendingBits = .zero → ∃ rs t, runResponses (feedAll bs) s = .next (rs, t) ∧
    rs.length = bs.length ∧ rs.filterMap id = streamValues bs ∧
    (rs.filterMap id).length = 2 * bs.length / 3 ∧
    (∀ k < rs.length, ((rs.getD k none).isSome = true ↔ (k + 1) % 3 ≠ 1)) ∧
    t.pendingBits.bits = 8 * bs.length % 12

/-- R20, R97, R107, R142 (b) and (c): after feeding any bytes into a cleared core of any capacity, the Top-K is
the min(K, n) largest of the stream's n values in ascending order, the Last-K the last min(K, n) in order of
arrival; both hold the same values while n is at most K. -/
def Obligations.StreamFillsBothCollections : Prop :=
  ∀ bs s, Cleared s → ∃ rs t, runResponses (feedAll bs) s = .next (rs, t) ∧ t.K = s.K ∧
    t.topValues = largest s.K (streamValues bs) ∧ t.lastValues = latest s.K (streamValues bs) ∧
    ((streamValues bs).length ≤ s.K → t.topValues.Perm t.lastValues)
end

