-- ==== Sys2Proof/Laws/Arrays.lean ====
section
/-!
SUPPORT. What the loops of CONSIDER do to an array, slot by slot (spec/41_topk.md rules R81 to R83), so that no
later proof unfolds them; and that every array write keeps the array's length.
-/

namespace Sys2Proof.Machine

open Sys2Proof

theorem getD_set (a : List Slot) (i j : Nat) (x : Slot) (h : i < a.length) :
    (a.set i x).getD j none = if j = i then x else a.getD j none := by
  simp only [List.getD_eq_getElem?_getD, List.getElem?_set]
  by_cases hij : i = j
  · subst hij; simp [h]
  · simp [hij, Ne.symm hij]

@[simp] theorem shiftUp_length (a : List Slot) (idx j : Nat) : (shiftUp a idx j).length = a.length := by
  induction j generalizing a with
  | zero => rfl
  | succ j ih => unfold shiftUp; split <;> simp [ih]

@[simp] theorem shiftDown_length (a : List Slot) (j m : Nat) : (shiftDown a j m).length = a.length := by
  induction m generalizing a j with
  | zero => rfl
  | succ m ih => simp [shiftDown, ih]

@[simp] theorem growAt_length (a : List Slot) (idx n : Nat) (v : Value) :
    (growAt a idx n v).length = a.length := by simp [growAt]

@[simp] theorem replaceAt_length (a : List Slot) (idx : Nat) (v : Value) :
    (replaceAt a idx v).length = a.length := by simp [replaceAt]

/-- Slots `idx + 1` to `n` take the contents of the slot below; the others stay. -/
theorem getD_shiftUp (a : List Slot) (idx n j : Nat) (h : n < a.length) :
    (shiftUp a idx n).getD j none =
      if idx < j ∧ j ≤ n then a.getD (j - 1) none else a.getD j none := by
  induction n generalizing a with
  | zero => rw [shiftUp, if_neg (by omega)]
  | succ n ih =>
    unfold shiftUp
    split
    · rename_i hle
      rw [ih _ (by simp; omega)]
      by_cases h1 : j = n + 1
      · subst h1
        rw [if_neg (by omega), getD_set _ _ _ _ h, if_pos rfl, if_pos (by omega)]; rfl
      · rw [getD_set _ _ _ _ h, getD_set _ _ _ _ h, if_neg h1]
        by_cases h2 : idx < j ∧ j ≤ n
        · rw [if_pos h2, if_neg (by omega), if_pos (by omega)]
        · rw [if_neg h2, if_neg (by omega)]
    · rw [if_neg (by omega)]

/-- Slots `j - 1` to `j + m - 2` take the contents of the slot above; the others stay. -/
theorem getD_shiftDown (a : List Slot) (j m i : Nat) (hj : 1 ≤ j) (h : j - 1 + m ≤ a.length) :
    (shiftDown a j m).getD i none =
      if j - 1 ≤ i ∧ i < j - 1 + m then a.getD (i + 1) none else a.getD i none := by
  induction m generalizing a j with
  | zero => rw [shiftDown, if_neg (by omega)]
  | succ m ih =>
    rw [shiftDown, ih _ _ (by omega) (by simp; omega)]
    rw [getD_set _ _ _ _ (by omega), getD_set _ _ _ _ (by omega)]
    by_cases h1 : i = j - 1
    · subst h1
      rw [if_neg (by omega), if_pos rfl, if_pos (by omega), Nat.sub_add_cancel hj]
    · by_cases h2 : j ≤ i ∧ i < j + m
      · rw [if_pos (by omega), if_neg (by omega), if_pos (by omega)]
      · rw [if_neg (by omega), if_neg h1, if_neg (by omega)]

/-- R82, slot by slot. -/
theorem getD_growAt (a : List Slot) (idx n j : Nat) (v : Value) (h : n < a.length) (hi : idx ≤ n) :
    (growAt a idx n v).getD j none =
      if j = idx then some v
      else if idx < j ∧ j ≤ n then a.getD (j - 1) none else a.getD j none := by
  rw [growAt, getD_set _ _ _ _ (by simp; omega), getD_shiftUp _ _ _ _ h]

/-- R83, slot by slot. -/
theorem getD_replaceAt (a : List Slot) (idx j : Nat) (v : Value) (h1 : 1 ≤ idx) (h : idx ≤ a.length) :
    (replaceAt a idx v).getD j none =
      if j = idx - 1 then some v
      else if j < idx - 1 then a.getD (j + 1) none else a.getD j none := by
  rw [replaceAt, getD_set _ _ _ _ (by simp; omega), getD_shiftDown _ _ _ _ (by omega) (by omega)]
  split
  · rfl
  · congr 1; simp

/-! ### The scan -/

theorem scan_ge (a : List Slot) (v : Value) (n fuel idx : Nat) : idx ≤ scan a v n fuel idx := by
  induction fuel generalizing idx with
  | zero => exact Nat.le_refl _
  | succ f ih =>
    unfold scan; split
    · exact Nat.le_trans (Nat.le_succ _) (ih _)
    · exact Nat.le_refl _

theorem scan_le (a : List Slot) (v : Value) (n fuel idx : Nat) (h : idx ≤ n) :
    scan a v n fuel idx ≤ n := by
  induction fuel generalizing idx with
  | zero => exact h
  | succ f ih => unfold scan; split <;> [exact ih _ (by omega); exact h]

/-- Every slot the scan passes is smaller than `v`. -/
theorem scan_passes (a : List Slot) (v : Value) (n fuel idx j : Nat) (h1 : idx ≤ j)
    (h2 : j < scan a v n fuel idx) : slotOr Config.unwrittenTop a j < v := by
  induction fuel generalizing idx with
  | zero => simp [scan] at h2; omega
  | succ f ih =>
    unfold scan at h2; split at h2
    · rename_i hc
      by_cases e : j = idx
      · subst e; exact hc.2
      · exact ih _ (by omega) h2
    · omega

/-- With enough fuel the scan stops before `n` only at a slot that is not smaller than `v`. -/
theorem scan_stops (a : List Slot) (v : Value) (n fuel idx : Nat) (hf : n ≤ idx + fuel)
    (h : scan a v n fuel idx < n) : ¬ slotOr Config.unwrittenTop a (scan a v n fuel idx) < v := by
  induction fuel generalizing idx with
  | zero => simp [scan] at h; omega
  | succ f ih =>
    unfold scan at h ⊢; split at h
    · rename_i hc; rw [if_pos hc]; exact ih _ (by omega) h
    · rename_i hc; rw [if_neg hc]; exact fun hl => hc ⟨h, hl⟩

/-- The scan reads only slots below `n` (R78). -/
theorem scan_congr (a a' : List Slot) (v : Value) (n fuel idx : Nat)
    (h : ∀ j < n, a.getD j none = a'.getD j none) : scan a v n fuel idx = scan a' v n fuel idx := by
  induction fuel generalizing idx with
  | zero => rfl
  | succ f ih =>
    unfold scan
    by_cases hi : idx < n
    · have e : slotOr Config.unwrittenTop a idx = slotOr Config.unwrittenTop a' idx := by
        rw [slotOr, slotOr, h idx hi]
      rw [e, ih]
    · simp [hi]

theorem insertionIndex_bound (a : List Slot) (v : Value) (n : Nat) : insertionIndex a v n ≤ n :=
  scan_le _ _ _ _ _ (Nat.zero_le _)

theorem below_insertionIndex (a : List Slot) (v : Value) (n j : Nat) (h : j < insertionIndex a v n) :
    slotOr Config.unwrittenTop a j < v := scan_passes _ _ _ _ _ _ (Nat.zero_le _) h

theorem at_insertionIndex (a : List Slot) (v : Value) (n : Nat) (h : insertionIndex a v n < n) :
    ¬ slotOr Config.unwrittenTop a (insertionIndex a v n) < v :=
  scan_stops _ _ _ _ _ (by omega) h

/-- A value greater than the first entry is passed by the scan (R83). -/
theorem insertionIndex_pos (a : List Slot) (v : Value) (n : Nat) (hn : 0 < n)
    (h : slotOr Config.unwrittenTop a 0 < v) : 1 ≤ insertionIndex a v n := by
  refine Nat.pos_of_ne_zero fun e => ?_
  exact at_insertionIndex a v n (by omega) (by rwa [e])

end Sys2Proof.Machine
end

