-- ==== Sys2Proof/Laws/State.lean ====
section
/-!
SUPPORT. For each named write of the state, what every field holds after it; all true by definition, so that
no proof unfolds a record update.
-/

namespace Sys2Proof.Machine

open Sys2Proof

variable (s : State)

/-! ### setUnpacker -/

@[simp] theorem State.setUnpacker_cfg (p : PendingBits) (v : Byte) : (s.setUnpacker p v).cfg = s.cfg := rfl
@[simp] theorem State.setUnpacker_pendingBits (p : PendingBits) (v : Byte) : (s.setUnpacker p v).pendingBits = p := rfl
@[simp] theorem State.setUnpacker_pendingValue (p : PendingBits) (v : Byte) : (s.setUnpacker p v).pendingValue = v := rfl
@[simp] theorem State.setUnpacker_top (p : PendingBits) (v : Byte) : (s.setUnpacker p v).top = s.top := rfl
@[simp] theorem State.setUnpacker_topCount (p : PendingBits) (v : Byte) : (s.setUnpacker p v).topCount = s.topCount := rfl
@[simp] theorem State.setUnpacker_last (p : PendingBits) (v : Byte) : (s.setUnpacker p v).last = s.last := rfl
@[simp] theorem State.setUnpacker_lastCursor (p : PendingBits) (v : Byte) : (s.setUnpacker p v).lastCursor = s.lastCursor := rfl
@[simp] theorem State.setUnpacker_lastCount (p : PendingBits) (v : Byte) : (s.setUnpacker p v).lastCount = s.lastCount := rfl
@[simp] theorem State.setUnpacker_vbus (p : PendingBits) (v : Byte) : (s.setUnpacker p v).vbus = s.vbus := rfl
@[simp] theorem State.setUnpacker_rsp (p : PendingBits) (v : Byte) : (s.setUnpacker p v).rsp = s.rsp := rfl
@[simp] theorem State.setUnpacker_port (p : PendingBits) (v : Byte) : (s.setUnpacker p v).port = s.port := rfl
@[simp] theorem State.setUnpacker_busy (p : PendingBits) (v : Byte) : (s.setUnpacker p v).busy = s.busy := rfl
@[simp] theorem State.setUnpacker_stalls (p : PendingBits) (v : Byte) : (s.setUnpacker p v).stalls = s.stalls := rfl
@[simp] theorem State.setUnpacker_waiting (p : PendingBits) (v : Byte) : (s.setUnpacker p v).waiting = s.waiting := rfl
@[simp] theorem State.setUnpacker_K (p : PendingBits) (v : Byte) : (s.setUnpacker p v).K = s.K := rfl

/-! ### setTop -/

@[simp] theorem State.setTop_cfg (a : List Slot) (n : Nat) : (s.setTop a n).cfg = s.cfg := rfl
@[simp] theorem State.setTop_pendingBits (a : List Slot) (n : Nat) : (s.setTop a n).pendingBits = s.pendingBits := rfl
@[simp] theorem State.setTop_pendingValue (a : List Slot) (n : Nat) : (s.setTop a n).pendingValue = s.pendingValue := rfl
@[simp] theorem State.setTop_top (a : List Slot) (n : Nat) : (s.setTop a n).top = a := rfl
@[simp] theorem State.setTop_topCount (a : List Slot) (n : Nat) : (s.setTop a n).topCount = n := rfl
@[simp] theorem State.setTop_last (a : List Slot) (n : Nat) : (s.setTop a n).last = s.last := rfl
@[simp] theorem State.setTop_lastCursor (a : List Slot) (n : Nat) : (s.setTop a n).lastCursor = s.lastCursor := rfl
@[simp] theorem State.setTop_lastCount (a : List Slot) (n : Nat) : (s.setTop a n).lastCount = s.lastCount := rfl
@[simp] theorem State.setTop_vbus (a : List Slot) (n : Nat) : (s.setTop a n).vbus = s.vbus := rfl
@[simp] theorem State.setTop_rsp (a : List Slot) (n : Nat) : (s.setTop a n).rsp = s.rsp := rfl
@[simp] theorem State.setTop_port (a : List Slot) (n : Nat) : (s.setTop a n).port = s.port := rfl
@[simp] theorem State.setTop_busy (a : List Slot) (n : Nat) : (s.setTop a n).busy = s.busy := rfl
@[simp] theorem State.setTop_stalls (a : List Slot) (n : Nat) : (s.setTop a n).stalls = s.stalls := rfl
@[simp] theorem State.setTop_waiting (a : List Slot) (n : Nat) : (s.setTop a n).waiting = s.waiting := rfl
@[simp] theorem State.setTop_K (a : List Slot) (n : Nat) : (s.setTop a n).K = s.K := rfl

/-! ### setLast -/

@[simp] theorem State.setLast_cfg (a : List Slot) (c n : Nat) : (s.setLast a c n).cfg = s.cfg := rfl
@[simp] theorem State.setLast_pendingBits (a : List Slot) (c n : Nat) : (s.setLast a c n).pendingBits = s.pendingBits := rfl
@[simp] theorem State.setLast_pendingValue (a : List Slot) (c n : Nat) : (s.setLast a c n).pendingValue = s.pendingValue := rfl
@[simp] theorem State.setLast_top (a : List Slot) (c n : Nat) : (s.setLast a c n).top = s.top := rfl
@[simp] theorem State.setLast_topCount (a : List Slot) (c n : Nat) : (s.setLast a c n).topCount = s.topCount := rfl
@[simp] theorem State.setLast_last (a : List Slot) (c n : Nat) : (s.setLast a c n).last = a := rfl
@[simp] theorem State.setLast_lastCursor (a : List Slot) (c n : Nat) : (s.setLast a c n).lastCursor = c := rfl
@[simp] theorem State.setLast_lastCount (a : List Slot) (c n : Nat) : (s.setLast a c n).lastCount = n := rfl
@[simp] theorem State.setLast_vbus (a : List Slot) (c n : Nat) : (s.setLast a c n).vbus = s.vbus := rfl
@[simp] theorem State.setLast_rsp (a : List Slot) (c n : Nat) : (s.setLast a c n).rsp = s.rsp := rfl
@[simp] theorem State.setLast_port (a : List Slot) (c n : Nat) : (s.setLast a c n).port = s.port := rfl
@[simp] theorem State.setLast_busy (a : List Slot) (c n : Nat) : (s.setLast a c n).busy = s.busy := rfl
@[simp] theorem State.setLast_stalls (a : List Slot) (c n : Nat) : (s.setLast a c n).stalls = s.stalls := rfl
@[simp] theorem State.setLast_waiting (a : List Slot) (c n : Nat) : (s.setLast a c n).waiting = s.waiting := rfl
@[simp] theorem State.setLast_K (a : List Slot) (c n : Nat) : (s.setLast a c n).K = s.K := rfl

/-! ### setRsp -/

@[simp] theorem State.setRsp_cfg (r : Option Value) : (s.setRsp r).cfg = s.cfg := rfl
@[simp] theorem State.setRsp_pendingBits (r : Option Value) : (s.setRsp r).pendingBits = s.pendingBits := rfl
@[simp] theorem State.setRsp_pendingValue (r : Option Value) : (s.setRsp r).pendingValue = s.pendingValue := rfl
@[simp] theorem State.setRsp_top (r : Option Value) : (s.setRsp r).top = s.top := rfl
@[simp] theorem State.setRsp_topCount (r : Option Value) : (s.setRsp r).topCount = s.topCount := rfl
@[simp] theorem State.setRsp_last (r : Option Value) : (s.setRsp r).last = s.last := rfl
@[simp] theorem State.setRsp_lastCursor (r : Option Value) : (s.setRsp r).lastCursor = s.lastCursor := rfl
@[simp] theorem State.setRsp_lastCount (r : Option Value) : (s.setRsp r).lastCount = s.lastCount := rfl
@[simp] theorem State.setRsp_vbus (r : Option Value) : (s.setRsp r).vbus = s.vbus := rfl
@[simp] theorem State.setRsp_rsp (r : Option Value) : (s.setRsp r).rsp = r := rfl
@[simp] theorem State.setRsp_port (r : Option Value) : (s.setRsp r).port = s.port := rfl
@[simp] theorem State.setRsp_busy (r : Option Value) : (s.setRsp r).busy = s.busy := rfl
@[simp] theorem State.setRsp_stalls (r : Option Value) : (s.setRsp r).stalls = s.stalls := rfl
@[simp] theorem State.setRsp_waiting (r : Option Value) : (s.setRsp r).waiting = s.waiting := rfl
@[simp] theorem State.setRsp_K (r : Option Value) : (s.setRsp r).K = s.K := rfl

/-! ### setBus -/

@[simp] theorem State.setBus_cfg (w : VbusWord) : (s.setBus w).cfg = s.cfg := rfl
@[simp] theorem State.setBus_pendingBits (w : VbusWord) : (s.setBus w).pendingBits = s.pendingBits := rfl
@[simp] theorem State.setBus_pendingValue (w : VbusWord) : (s.setBus w).pendingValue = s.pendingValue := rfl
@[simp] theorem State.setBus_top (w : VbusWord) : (s.setBus w).top = s.top := rfl
@[simp] theorem State.setBus_topCount (w : VbusWord) : (s.setBus w).topCount = s.topCount := rfl
@[simp] theorem State.setBus_last (w : VbusWord) : (s.setBus w).last = s.last := rfl
@[simp] theorem State.setBus_lastCursor (w : VbusWord) : (s.setBus w).lastCursor = s.lastCursor := rfl
@[simp] theorem State.setBus_lastCount (w : VbusWord) : (s.setBus w).lastCount = s.lastCount := rfl
@[simp] theorem State.setBus_vbus (w : VbusWord) : (s.setBus w).vbus = w := rfl
@[simp] theorem State.setBus_rsp (w : VbusWord) : (s.setBus w).rsp = s.rsp := rfl
@[simp] theorem State.setBus_port (w : VbusWord) : (s.setBus w).port = s.port := rfl
@[simp] theorem State.setBus_busy (w : VbusWord) : (s.setBus w).busy = s.busy := rfl
@[simp] theorem State.setBus_stalls (w : VbusWord) : (s.setBus w).stalls = s.stalls := rfl
@[simp] theorem State.setBus_waiting (w : VbusWord) : (s.setBus w).waiting = s.waiting := rfl
@[simp] theorem State.setBus_K (w : VbusWord) : (s.setBus w).K = s.K := rfl

/-! ### setPorts -/

@[simp] theorem State.setPorts_cfg (es : List Edge) (b : Nat) (ds : List Nat) (w : Option CmdWord) : (s.setPorts es b ds w).cfg = s.cfg := rfl
@[simp] theorem State.setPorts_pendingBits (es : List Edge) (b : Nat) (ds : List Nat) (w : Option CmdWord) : (s.setPorts es b ds w).pendingBits = s.pendingBits := rfl
@[simp] theorem State.setPorts_pendingValue (es : List Edge) (b : Nat) (ds : List Nat) (w : Option CmdWord) : (s.setPorts es b ds w).pendingValue = s.pendingValue := rfl
@[simp] theorem State.setPorts_top (es : List Edge) (b : Nat) (ds : List Nat) (w : Option CmdWord) : (s.setPorts es b ds w).top = s.top := rfl
@[simp] theorem State.setPorts_topCount (es : List Edge) (b : Nat) (ds : List Nat) (w : Option CmdWord) : (s.setPorts es b ds w).topCount = s.topCount := rfl
@[simp] theorem State.setPorts_last (es : List Edge) (b : Nat) (ds : List Nat) (w : Option CmdWord) : (s.setPorts es b ds w).last = s.last := rfl
@[simp] theorem State.setPorts_lastCursor (es : List Edge) (b : Nat) (ds : List Nat) (w : Option CmdWord) : (s.setPorts es b ds w).lastCursor = s.lastCursor := rfl
@[simp] theorem State.setPorts_lastCount (es : List Edge) (b : Nat) (ds : List Nat) (w : Option CmdWord) : (s.setPorts es b ds w).lastCount = s.lastCount := rfl
@[simp] theorem State.setPorts_vbus (es : List Edge) (b : Nat) (ds : List Nat) (w : Option CmdWord) : (s.setPorts es b ds w).vbus = s.vbus := rfl
@[simp] theorem State.setPorts_rsp (es : List Edge) (b : Nat) (ds : List Nat) (w : Option CmdWord) : (s.setPorts es b ds w).rsp = s.rsp := rfl
@[simp] theorem State.setPorts_port (es : List Edge) (b : Nat) (ds : List Nat) (w : Option CmdWord) : (s.setPorts es b ds w).port = es := rfl
@[simp] theorem State.setPorts_busy (es : List Edge) (b : Nat) (ds : List Nat) (w : Option CmdWord) : (s.setPorts es b ds w).busy = b := rfl
@[simp] theorem State.setPorts_stalls (es : List Edge) (b : Nat) (ds : List Nat) (w : Option CmdWord) : (s.setPorts es b ds w).stalls = ds := rfl
@[simp] theorem State.setPorts_waiting (es : List Edge) (b : Nat) (ds : List Nat) (w : Option CmdWord) : (s.setPorts es b ds w).waiting = w := rfl
@[simp] theorem State.setPorts_K (es : List Edge) (b : Nat) (ds : List Nat) (w : Option CmdWord) : (s.setPorts es b ds w).K = s.K := rfl

/-! ### resetTransition -/

@[simp] theorem State.resetTransition_cfg : (s.resetTransition).cfg = s.cfg := rfl
@[simp] theorem State.resetTransition_pendingBits : (s.resetTransition).pendingBits = .zero := rfl
@[simp] theorem State.resetTransition_pendingValue : (s.resetTransition).pendingValue = 0 := rfl
@[simp] theorem State.resetTransition_top : (s.resetTransition).top = List.replicate s.K none := rfl
@[simp] theorem State.resetTransition_topCount : (s.resetTransition).topCount = 0 := rfl
@[simp] theorem State.resetTransition_last : (s.resetTransition).last = List.replicate s.K none := rfl
@[simp] theorem State.resetTransition_lastCursor : (s.resetTransition).lastCursor = 0 := rfl
@[simp] theorem State.resetTransition_lastCount : (s.resetTransition).lastCount = 0 := rfl
@[simp] theorem State.resetTransition_vbus : (s.resetTransition).vbus = s.vbus := rfl
@[simp] theorem State.resetTransition_rsp : (s.resetTransition).rsp = s.rsp := rfl
@[simp] theorem State.resetTransition_port : (s.resetTransition).port = s.port := rfl
@[simp] theorem State.resetTransition_busy : (s.resetTransition).busy = s.busy := rfl
@[simp] theorem State.resetTransition_stalls : (s.resetTransition).stalls = s.stalls := rfl
@[simp] theorem State.resetTransition_waiting : (s.resetTransition).waiting = s.waiting := rfl
@[simp] theorem State.resetTransition_K : (s.resetTransition).K = s.K := rfl

/-! ### recorded -/

@[simp] theorem State.recorded_cfg (v : Value) : (s.recorded v).cfg = s.cfg := rfl
@[simp] theorem State.recorded_pendingBits (v : Value) : (s.recorded v).pendingBits = s.pendingBits := rfl
@[simp] theorem State.recorded_pendingValue (v : Value) : (s.recorded v).pendingValue = s.pendingValue := rfl
@[simp] theorem State.recorded_top (v : Value) : (s.recorded v).top = s.top := rfl
@[simp] theorem State.recorded_topCount (v : Value) : (s.recorded v).topCount = s.topCount := rfl
@[simp] theorem State.recorded_last (v : Value) : (s.recorded v).last = s.last.set s.lastCursor (some v) := rfl
@[simp] theorem State.recorded_lastCursor (v : Value) : (s.recorded v).lastCursor = (s.lastCursor + 1) % s.K := rfl
@[simp] theorem State.recorded_lastCount (v : Value) : (s.recorded v).lastCount = min (s.lastCount + 1) s.K := rfl
@[simp] theorem State.recorded_vbus (v : Value) : (s.recorded v).vbus = s.vbus := rfl
@[simp] theorem State.recorded_rsp (v : Value) : (s.recorded v).rsp = s.rsp := rfl
@[simp] theorem State.recorded_port (v : Value) : (s.recorded v).port = s.port := rfl
@[simp] theorem State.recorded_busy (v : Value) : (s.recorded v).busy = s.busy := rfl
@[simp] theorem State.recorded_stalls (v : Value) : (s.recorded v).stalls = s.stalls := rfl
@[simp] theorem State.recorded_waiting (v : Value) : (s.recorded v).waiting = s.waiting := rfl
@[simp] theorem State.recorded_K (v : Value) : (s.recorded v).K = s.K := rfl

/-! ### clocked -/

@[simp] theorem State.clocked_cfg : (s.clocked).cfg = s.cfg := rfl
@[simp] theorem State.clocked_pendingBits : (s.clocked).pendingBits = s.pendingBits := rfl
@[simp] theorem State.clocked_pendingValue : (s.clocked).pendingValue = s.pendingValue := rfl
@[simp] theorem State.clocked_top : (s.clocked).top = s.top := rfl
@[simp] theorem State.clocked_topCount : (s.clocked).topCount = s.topCount := rfl
@[simp] theorem State.clocked_last : (s.clocked).last = s.last := rfl
@[simp] theorem State.clocked_lastCursor : (s.clocked).lastCursor = s.lastCursor := rfl
@[simp] theorem State.clocked_lastCount : (s.clocked).lastCount = s.lastCount := rfl
@[simp] theorem State.clocked_vbus : (s.clocked).vbus = s.vbus := rfl
@[simp] theorem State.clocked_rsp : (s.clocked).rsp = none := rfl
@[simp] theorem State.clocked_port : (s.clocked).port = s.port.tail := rfl
@[simp] theorem State.clocked_busy : (s.clocked).busy = s.nextBusy := rfl
@[simp] theorem State.clocked_stalls : (s.clocked).stalls = s.nextStalls := rfl
@[simp] theorem State.clocked_waiting : (s.clocked).waiting = s.nextWaiting := rfl
@[simp] theorem State.clocked_K : (s.clocked).K = s.K := rfl

end Sys2Proof.Machine
end

