-- ==== Sys2Proof/Laws/Tracker.lean ====
section
/-!
SUPPORT. What CONSIDER can do, once: it grows, replaces or discards, and writes nothing but `top` and
`top_count`; what the internal bus carries; and what one step can do.
-/

namespace Sys2Proof.Machine

open Sys2Proof

theorem State.K_pos (s : State) : 0 < s.K := Nat.succ_pos _

theorem State.K_le (s : State) : s.K ≤ 256 := s.cfg.kMinusOne.isLt

/-! ### CONSIDER -/

section
variable (s : State) (v : Value)

@[simp] theorem State.considered_cfg : (s.considered v).cfg = s.cfg := rfl
@[simp] theorem State.considered_pendingBits : (s.considered v).pendingBits = s.pendingBits := rfl
@[simp] theorem State.considered_pendingValue : (s.considered v).pendingValue = s.pendingValue := rfl
@[simp] theorem State.considered_last : (s.considered v).last = s.last := rfl
@[simp] theorem State.considered_lastCursor : (s.considered v).lastCursor = s.lastCursor := rfl
@[simp] theorem State.considered_lastCount : (s.considered v).lastCount = s.lastCount := rfl
@[simp] theorem State.considered_vbus : (s.considered v).vbus = s.vbus := rfl
@[simp] theorem State.considered_rsp : (s.considered v).rsp = s.rsp := rfl
@[simp] theorem State.considered_port : (s.considered v).port = s.port := rfl
@[simp] theorem State.considered_busy : (s.considered v).busy = s.busy := rfl
@[simp] theorem State.considered_stalls : (s.considered v).stalls = s.stalls := rfl
@[simp] theorem State.considered_waiting : (s.considered v).waiting = s.waiting := rfl
@[simp] theorem State.considered_K : (s.considered v).K = s.K := rfl

/-! CONSIDER reads and writes `top` and `top_count` only, so it commutes with every other write. -/

theorem State.considered_setUnpacker (p : PendingBits) (b : Byte) :
    (s.setUnpacker p b).considered v = (s.considered v).setUnpacker p b := rfl

theorem State.considered_setLast (a : List Slot) (c n : Nat) :
    (s.setLast a c n).considered v = (s.considered v).setLast a c n := rfl

theorem State.considered_setRsp (r : Option Value) :
    (s.setRsp r).considered v = (s.considered v).setRsp r := rfl

theorem State.considered_setBus (w : VbusWord) :
    (s.setBus w).considered v = (s.considered v).setBus w := rfl

theorem State.considered_setPorts (es : List Edge) (b : Nat) (ds : List Nat) (w : Option CmdWord) :
    (s.setPorts es b ds w).considered v = (s.considered v).setPorts es b ds w := rfl

theorem State.considered_recorded (w : Value) :
    (s.recorded w).considered v = (s.considered v).recorded w := rfl

/-- Below capacity CONSIDER grows the collection; step 1 is the case of an empty one (R79, R82, R85). -/
theorem State.considered_grow (h : s.topCount < s.K) :
    s.considered v =
      s.setTop (growAt s.top (insertionIndex s.top v s.topCount) s.topCount v) (s.topCount + 1) := by
  unfold State.considered considerArray qualifies
  by_cases h0 : s.topCount = 0
  · rw [if_pos h0, h0]; rfl
  · rw [if_neg h0, if_neg (by simp [h]), if_pos h]

/-- At capacity a value greater than the minimum replaces it (R83). -/
theorem State.considered_replace (h : s.topCount = s.K) (hv : s.topSlot 0 < v) :
    s.considered v = s.setTop (replaceAt s.top (insertionIndex s.top v s.topCount) v) s.topCount := by
  have hk := s.K_pos
  have hv' : slotOr Config.unwrittenTop s.top 0 < v := hv
  unfold State.considered considerArray qualifies
  rw [if_neg (by omega), if_neg (by simp [hv']), if_neg (by omega)]

/-- At capacity any other value is discarded (R84). -/
theorem State.considered_discard (h : s.topCount = s.K) (hv : ¬ s.topSlot 0 < v) :
    s.considered v = s := by
  have hk := s.K_pos
  have hv' : ¬ slotOr Config.unwrittenTop s.top 0 < v := hv
  unfold State.considered considerArray qualifies
  rw [if_neg (by omega), if_pos (by simp only [decide_eq_false hv']; simp; omega)]
  rfl

end

/-! ### The internal bus -/

@[simp] theorem vbusValid_some (v : Value) : vbusValid (vbusOf (some v)) = true := by
  rw [vbusValid, vbusOf, BitVec.getLsbD_append]; rfl

@[simp] theorem vbusValue_some (v : Value) : vbusValue (vbusOf (some v)) = v := by
  simp only [vbusValue, vbusOf]
  exact BitVec.extractLsb'_append_eq_right

@[simp] theorem vbusValid_none : vbusValid (vbusOf none) = false := rfl

@[simp] theorem vbusResponse_of (r : Option Value) : vbusResponse (vbusOf r) = r := by
  cases r <;> simp [vbusResponse]

@[simp] theorem State.tracked_some (s : State) (v : Value) :
    s.tracked (vbusOf (some v)) = (s.considered v).recorded v := by simp [State.tracked]

@[simp] theorem State.tracked_none (s : State) : s.tracked (vbusOf none) = s := by simp [State.tracked]

/-! ### The operations -/

@[simp] theorem exec_nop (s : State) : exec .nop s = .next (s.setRsp none) := rfl

@[simp] theorem exec_rdtop (i : Index) (s : State) :
    exec (.rdtop i) s = .next (s.setRsp (s.readTop i.toNat)) := rfl

@[simp] theorem exec_rdlast (i : Index) (s : State) :
    exec (.rdlast i) s = .next (s.setRsp (s.readLast i.toNat)) := rfl

@[simp] theorem exec_clr (s : State) : exec .clr s = .next (s.resetTransition.setRsp none) := rfl

@[simp] theorem exec_consider (v : Value) (s : State) : exec (.consider v) s = .next (s.considered v) := rfl

@[simp] theorem exec_record (v : Value) (s : State) : exec (.record v) s = .next (s.recorded v) := rfl

/-- Phase A of a FEED (R69). -/
theorem exec_feed_zero (b : Byte) (s : State) (h : s.pendingBits = .zero) :
    exec (.feed b) s = .next ((s.setUnpacker .eight b).setRsp none) := by
  simp [exec, execFeed, State.unpack, State.phase, h, phaseA]

/-- Phase B of a FEED (R70). -/
theorem exec_feed_eight (b : Byte) (s : State) (h : s.pendingBits = .eight) :
    exec (.feed b) s =
      .next ((((s.setUnpacker .four ((lowNibble b).setWidth 8)).considered
        (phaseBValue s.pendingValue b)).recorded (phaseBValue s.pendingValue b)).setRsp
        (some (phaseBValue s.pendingValue b))) := by
  simp [exec, execFeed, State.unpack, State.phase, h, phaseB]

/-- Phase C of a FEED (R71). -/
theorem exec_feed_four (b : Byte) (s : State) (h : s.pendingBits = .four) :
    exec (.feed b) s =
      .next ((((s.setUnpacker .zero 0).considered
        (phaseCValue s.pendingValue b)).recorded (phaseCValue s.pendingValue b)).setRsp
        (some (phaseCValue s.pendingValue b))) := by
  simp [exec, execFeed, State.unpack, State.phase, h, phaseC]

/-! ### One step -/

@[simp] theorem execAll_nil (s : State) : execAll [] s = .next s := rfl

theorem execAll_cons_next (i : Instr) (is : List Instr) (s t : State) (h : exec i s = .next t) :
    execAll (i :: is) s = execAll is t := by simp only [execAll, h]

theorem execAll_singleton (i : Instr) (s : State) : execAll [i] s = exec i s := by
  simp only [execAll]; cases exec i s <;> rfl

/-- Everything a step that answers a next state can be: the bus is drained, the core is reset, a command is
accepted, or nothing is. -/
theorem step_cases (s t : State) (h : step s = .next t) :
    (vbusValid s.vbus = true ∧
      t = (((s.setBus 0).setRsp none).considered (vbusValue s.vbus)).recorded (vbusValue s.vbus)) ∨
    (vbusValid s.vbus = false ∧ s.edge.rst = true ∧ t = s.clocked.resetTransition) ∨
    (vbusValid s.vbus = false ∧ s.edge.rst = false ∧ s.breaksHandshake = false ∧ s.accepts = true ∧
      ∃ i, decodeCmd s.edge.cmd = .ok i ∧ exec i s.clocked = .next t) ∨
    (vbusValid s.vbus = false ∧ s.edge.rst = false ∧ s.breaksHandshake = false ∧ s.accepts = false ∧
      t = s.clocked) := by
  unfold step State.fetch at h
  by_cases hb : vbusValid s.vbus = true
  · left; simp only [hb, if_true, decodeVbus, execAll, exec_consider, exec_record] at h
    exact ⟨hb, by injection h with h; exact h.symm⟩
  · simp only [hb, State.fetchEdge] at h
    rw [Bool.not_eq_true] at hb
    right
    by_cases hr : s.edge.rst = true
    · left; simp only [hr, if_true] at h
      exact ⟨hb, hr, by injection h with h; exact h.symm⟩
    · right
      by_cases hk : s.breaksHandshake = true
      · simp [hr, hk] at h
      · by_cases ha : s.accepts = true
        · left
          simp only [hr, hk, ha, if_true] at h
          cases hd : decodeCmd s.edge.cmd with
          | ok i =>
            simp only [hd] at h
            exact ⟨hb, by simpa using hr, by simpa using hk, ha, i, rfl, by simpa [execAll_singleton] using h⟩
          | error e => cases e; simp [hd] at h
        · right
          simp only [hr, hk, ha] at h
          exact ⟨hb, by simpa using hr, by simpa using hk, by simpa using ha,
            by simpa using h.symm⟩

end Sys2Proof.Machine
end

