-- ==== Sys2Proof/Laws/Form.lean ====
section
/-!
SUPPORT. The form of the two arrays (`FilledTo`): reset has it and every operation on an array keeps it. Also what
reading a filled slot gives, the counts after an operation, and the physical slot of a logical index.
-/

namespace Sys2Proof.Safety

open Sys2Proof Sys2Proof.Machine

/-- The arrays as reset leaves them have the form. -/
theorem filledTo_replicate (k : Nat) : FilledTo (List.replicate k none) k 0 := by
  refine ⟨by simp, by omega, fun i hi => ?_⟩
  simp [List.getD_eq_getElem?_getD, hi]

/-- CONSIDER keeps the form of `top`. -/
theorem filledTo_considered (s : State) (v : Value) (h : FilledTo s.top s.K s.topCount) :
    FilledTo (s.considered v).top (s.considered v).K (s.considered v).topCount := by
  obtain ⟨hl, hn, hf⟩ := h
  have hi := insertionIndex_bound s.top v s.topCount
  by_cases hk : s.topCount < s.K
  · rw [s.considered_grow v hk]
    refine ⟨by simp [hl], by simp; omega, fun i hik => ?_⟩
    simp only [State.setTop_top, State.setTop_topCount, State.setTop_K] at *
    rw [getD_growAt _ _ _ _ _ (by omega) hi]
    split_ifs with c1 c2
    · simp; omega
    · rw [hf (i - 1) (by omega)]; omega
    · rw [hf i hik]; omega
  · have hK : s.topCount = s.K := by omega
    have kp := s.K_pos
    by_cases hv : s.topSlot 0 < v
    · have hp := insertionIndex_pos s.top v s.topCount (by omega) hv
      rw [s.considered_replace v hK hv]
      refine ⟨by simp [hl], by simp; omega, fun i hik => ?_⟩
      simp only [State.setTop_top, State.setTop_topCount, State.setTop_K] at *
      rw [getD_replaceAt _ _ _ _ hp (by omega)]
      split_ifs with c1 c2
      · simp; omega
      · rw [hf (i + 1) (by omega)]; omega
      · rw [hf i hik]
    · rw [s.considered_discard v hK hv]; exact ⟨hl, hn, hf⟩

/-- RECORD keeps the form of `last`, where the cursor is at the count until the array is full (R25). -/
theorem filledTo_recorded (s : State) (v : Value) (h : FilledTo s.last s.K s.lastCount)
    (hc : s.lastCursor < s.K) (hcn : s.lastCount < s.K → s.lastCursor = s.lastCount) :
    FilledTo (s.recorded v).last (s.recorded v).K (s.recorded v).lastCount := by
  obtain ⟨hl, hn, hf⟩ := h
  refine ⟨by simp [hl], by simp, fun i hi => ?_⟩
  simp only [State.recorded_last, State.recorded_lastCount, State.recorded_K] at *
  rw [getD_set _ _ _ _ (by omega)]
  split_ifs with c
  · simp; omega
  · rw [hf i hi]; omega

/-- Below the count a slot of `top` holds its entry; no free value is read. -/
theorem top_getD (s : State) (h : FilledTo s.top s.K s.topCount) (j : Nat) (hj : j < s.topCount) :
    s.top.getD j none = some (s.topSlot j) := by
  obtain ⟨_, hn, hf⟩ := h
  have hs := (hf j (by omega)).2 hj
  unfold State.topSlot slotOr
  cases hq : s.top.getD j none with
  | none => rw [hq] at hs; cases hs
  | some x => rfl

/-- Below the count a slot of `last` holds its value; no free value is read. -/
theorem last_getD (s : State) (h : FilledTo s.last s.K s.lastCount) (j : Nat) (hj : j < s.lastCount) :
    s.last.getD j none = some (s.lastSlot j) := by
  obtain ⟨_, hn, hf⟩ := h
  have hs := (hf j (by omega)).2 hj
  unfold State.lastSlot slotOr
  cases hq : s.last.getD j none with
  | none => rw [hq] at hs; cases hs
  | some x => rfl

/-- Entries further up a sorted collection are not smaller. -/
theorem topSlot_mono (s : State) (h : Sorted s) (i j : Nat) (hij : i ≤ j) (hj : j < s.topCount) :
    s.topSlot i ≤ s.topSlot j := by
  induction j with
  | zero => rw [Nat.le_zero.mp hij]; exact BitVec.le_refl _
  | succ j ih =>
    by_cases e : i = j + 1
    · rw [e]; exact BitVec.le_refl _
    · exact BitVec.le_trans (ih (by omega) (by omega)) (h j (by omega) hj)

/-- The count after a CONSIDER (R18). -/
theorem considered_topCount (s : State) (v : Value) (h : s.topCount ≤ s.K) :
    (s.considered v).topCount = min (s.topCount + 1) s.K := by
  by_cases hk : s.topCount < s.K
  · rw [s.considered_grow v hk]; simp; omega
  · have hK : s.topCount = s.K := by omega
    by_cases hv : s.topSlot 0 < v
    · rw [s.considered_replace v hK hv]; simp; omega
    · rw [s.considered_discard v hK hv]; omega

/-- "The reduction modulo K is one conditional subtraction of K" (R103). -/
theorem add_mod_capacity (c i k : Nat) (h : c < k) (h' : i ≤ k) :
    (c + i) % k = if c + i < k then c + i else c + i - k := by
  split
  · exact Nat.mod_eq_of_lt (by assumption)
  · rw [Nat.mod_eq_sub_mod (by omega)]; exact Nat.mod_eq_of_lt (by omega)

/-- Before the buffer is full the cursor is not added (R44). -/
theorem phys_of_not_full (s : State) (i : Nat) (h : s.lastCount < s.K) : s.phys i = i := by
  unfold State.phys State.lastFull; rw [if_neg (by simp; omega)]

/-- Once it is full the logical index starts at the cursor (R44). -/
theorem phys_of_full (s : State) (i : Nat) (h : s.lastCount = s.K) (hc : s.lastCursor < s.K) (hi : i < s.K) :
    s.phys i = if s.lastCursor + i < s.K then s.lastCursor + i else s.lastCursor + i - s.K := by
  unfold State.phys State.lastFull
  rw [if_pos (by simp [h]), add_mod_capacity _ _ _ hc (by omega)]

/-- Reading a slot after a RECORD. -/
theorem lastSlot_recorded (s : State) (v : Value) (hl : s.last.length = s.K) (hc : s.lastCursor < s.K)
    (p : Nat) : (s.recorded v).lastSlot p = if p = s.lastCursor then v else s.lastSlot p := by
  unfold State.lastSlot slotOr
  rw [State.recorded_last, getD_set _ _ _ _ (by omega)]
  split <;> rfl

/-! The content of the collections as lists. -/

@[simp] theorem topValues_length (s : State) : s.topValues.length = s.topCount := by
  simp [State.topValues]

@[simp] theorem lastValues_length (s : State) : s.lastValues.length = s.lastCount := by
  simp [State.lastValues]

theorem topValues_getElem (s : State) (j : Nat) (h : j < s.topValues.length) :
    s.topValues[j] = s.topSlot j := by simp [State.topValues]

theorem lastValues_getElem (s : State) (j : Nat) (h : j < s.lastValues.length) :
    s.lastValues[j] = s.lastSlot (s.phys j) := by simp [State.lastValues]

end Sys2Proof.Safety
end

