-- ==== Sys2Proof/Laws/PerInstr.lean ====
section
/-!
SUPPORT. A fact about every operation as syntax: its encoded word lies in its row of spec/opcode_table.json
(it has the row's width, and the bits under the row's mask are the row's match; rule R58).
-/

namespace Sys2Proof

/-- A CMD word is `256 * op + arg` (R53, R58). -/
@[simp] theorem cmdWord_toNat (op : BitVec 3) (arg : BitVec 8) :
    (cmdWord op arg).toNat = 256 * op.toNat + arg.toNat := by
  have h := arg.isLt
  rw [cmdWord, BitVec.toNat_append, Nat.shiftLeft_eq, Nat.mul_comm, ← Nat.two_pow_add_eq_or_of_lt h]

/-- The VBUS word of a value is `4096 + v` (R54). -/
@[simp] theorem vbusOf_toNat (v : Value) : (vbusOf (some v)).toNat = 4096 + v.toNat := by
  have h := v.isLt
  rw [vbusOf, BitVec.toNat_append, Nat.shiftLeft_eq, Nat.mul_comm, ← Nat.two_pow_add_eq_or_of_lt h]
  rfl

@[simp] theorem opField_cmdWord (op : BitVec 3) (arg : BitVec 8) : opField (cmdWord op arg) = op := by
  rw [opField, cmdWord]; exact BitVec.extractLsb'_append_eq_left

@[simp] theorem argField_cmdWord (op : BitVec 3) (arg : BitVec 8) : argField (cmdWord op arg) = arg := by
  rw [argField, cmdWord]; exact BitVec.extractLsb'_append_eq_right

/-- The bits of a CMD word under the mask of the opcode field. -/
theorem cmd_masked (op : Nat) (arg : BitVec 8) (h : op < 8) :
    (256 * op + arg.toNat) &&& 0x700 = 256 * op := by
  have ha := arg.isLt
  have e : 256 * op + arg.toNat = 2 ^ 8 * op + arg.toNat := rfl
  apply Nat.eq_of_testBit_eq
  intro i
  rw [Nat.testBit_and, e, Nat.testBit_two_pow_mul_add _ ha, show 256 * op = 2 ^ 8 * op from rfl,
    Nat.testBit_two_pow_mul, show (0x700 : Nat) = 2 ^ 8 * 7 from rfl, Nat.testBit_two_pow_mul]
  by_cases hi : i < 8
  · simp [hi, Nat.not_le.mpr hi]
  · have h8 : 8 ≤ i := by omega
    simp only [hi, if_false, h8, decide_true, Bool.true_and]
    by_cases h3 : i - 8 < 3
    · have : i - 8 = 0 ∨ i - 8 = 1 ∨ i - 8 = 2 := by omega
      rcases this with e | e | e <;> rw [e, show Nat.testBit 7 _ = true from rfl, Bool.and_true]
    · have hlt : op < 2 ^ (i - 8) := lt_of_lt_of_le h (Nat.pow_le_pow_right (n := 2) (by decide) (by omega : 3 ≤ i - 8))
      rw [Nat.testBit_lt_two_pow hlt, Bool.false_and]

/-- The bit of a VBUS word under the mask of `v_valid`. -/
theorem vbus_masked (v : Value) : (4096 + v.toNat) &&& 0x1000 = 4096 := by
  have hv := v.isLt
  apply Nat.eq_of_testBit_eq
  intro i
  rw [Nat.testBit_and, show 4096 + v.toNat = 2 ^ 12 * 1 + v.toNat from rfl,
    Nat.testBit_two_pow_mul_add _ hv, show (0x1000 : Nat) = 2 ^ 12 from rfl, Nat.testBit_two_pow]
  by_cases hi : i = 12
  · subst hi; rfl
  · simp [Ne.symm hi]

namespace Laws.TableRow

/-- The word of an operation lies in its row of the opcode table. -/
def Statement (i : Instr) : Prop :=
  encodeNat i < 2 ^ (tableRow i).1 ∧ encodeNat i &&& (tableRow i).2.2 = (tableRow i).2.1

theorem nop : Statement .nop := by unfold Statement; decide

theorem clr : Statement .clr := by unfold Statement; decide

theorem feed (b : Byte) : Statement (.feed b) := by
  have h := b.isLt
  refine ⟨?_, ?_⟩ <;> simp only [encodeNat, encode, tableRow, cmdWord_toNat]
  · simp; omega
  · exact cmd_masked 1 b (by decide)

theorem rdtop (i : Index) : Statement (.rdtop i) := by
  have h := i.isLt
  refine ⟨?_, ?_⟩ <;> simp only [encodeNat, encode, tableRow, cmdWord_toNat]
  · simp; omega
  · exact cmd_masked 2 i (by decide)

theorem rdlast (i : Index) : Statement (.rdlast i) := by
  have h := i.isLt
  refine ⟨?_, ?_⟩ <;> simp only [encodeNat, encode, tableRow, cmdWord_toNat]
  · simp; omega
  · exact cmd_masked 3 i (by decide)

theorem consider (v : Value) : Statement (.consider v) := by
  have h := v.isLt
  refine ⟨?_, ?_⟩ <;> simp only [encodeNat, encode, tableRow, vbusOf_toNat]
  · omega
  · exact vbus_masked v

theorem record (v : Value) : Statement (.record v) := by
  have h := v.isLt
  refine ⟨?_, ?_⟩ <;> simp only [encodeNat, encode, tableRow, vbusOf_toNat]
  · omega
  · exact vbus_masked v

end Laws.TableRow

end Sys2Proof
end

