-- ==== Sys2Proof/Laws/Step.lean ====
section
/-!
SUPPORT. One step in each of its cases, and the host's `run` one step at a time.
-/

namespace Sys2Proof.Machine

open Sys2Proof

/-- With the bus empty a step is what its clock edge performs. -/
theorem step_of_bus_empty (s : State) (h : vbusValid s.vbus = false) :
    step s = match s.fetchEdge with
      | .run is t => execAll is t
      | .refuse r => .refused r := by
  cases hf : s.fetchEdge <;> simp [step, State.fetch, h, hf]

theorem step_reset (s : State) (hb : vbusValid s.vbus = false) (hr : s.edge.rst = true) :
    step s = .next s.clocked.resetTransition := by
  rw [step_of_bus_empty s hb]; unfold State.fetchEdge; simp [hr]

theorem step_hold (s : State) (hb : vbusValid s.vbus = false) (hr : s.edge.rst = false)
    (hk : s.breaksHandshake = false) (ha : s.accepts = false) : step s = .next s.clocked := by
  rw [step_of_bus_empty s hb]; unfold State.fetchEdge; simp [hr, hk, ha]

theorem step_accept (s : State) (hb : vbusValid s.vbus = false) (hr : s.edge.rst = false)
    (hk : s.breaksHandshake = false) (ha : s.accepts = true) (i : Instr)
    (hd : decodeCmd s.edge.cmd = .ok i) : step s = exec i s.clocked := by
  rw [step_of_bus_empty s hb]; unfold State.fetchEdge
  simp [hr, hk, ha, hd, execAll_singleton]

/-- A host that presents no command, or the command it holds, keeps the handshake. -/
theorem breaksHandshake_eq_false (s : State)
    (h : s.edge.cmdValid = false ∨ s.waiting = none ∨ s.waiting = some s.edge.cmd) :
    s.breaksHandshake = false := by
  unfold State.breaksHandshake; rcases h with h | h | h <;> simp [h]

/-- The two shapes of a FEED: Phase A keeps the byte, the others complete a value and hand it on. -/
theorem exec_feed_cases (s : State) (b : Byte) : ∃ p q,
    (s.pendingBits = .zero ∧ exec (.feed b) s = .next ((s.setUnpacker p q).setRsp none)) ∨
    (s.pendingBits ≠ .zero ∧ ∃ v, exec (.feed b) s =
      .next ((((s.setUnpacker p q).considered v).recorded v).setRsp (some v))) := by
  cases h : s.pendingBits with
  | zero => exact ⟨_, _, Or.inl ⟨rfl, exec_feed_zero b s h⟩⟩
  | eight => exact ⟨_, _, Or.inr ⟨by simp, _, exec_feed_eight b s h⟩⟩
  | four => exact ⟨_, _, Or.inr ⟨by simp, _, exec_feed_four b s h⟩⟩

/-- A command's response is a function of the state before it (R63). -/
theorem exec_rsp (i : Instr) (s t : State) (hp : i.presentable = true) (h : exec i s = .next t) :
    t.rsp = s.responseOf i := by
  cases i <;> first | (cases h; rfl) | cases hp

@[simp] theorem responseOf_clocked (s : State) (i : Instr) : s.clocked.responseOf i = s.responseOf i := by
  cases i <;> rfl

theorem run_succ_of_next (s t : State) (k : Nat) (h : step s = .next t) :
    Host.Core.run Sys2Proof.core (k + 1) s = Host.Core.run Sys2Proof.core k t := by
  have h' : Sys2Proof.core.step s = .next t := h
  simp only [Host.Core.run, h']

theorem run_one (s : State) : Host.Core.run Sys2Proof.core 1 s = step s := by
  have h' : Sys2Proof.core.step s = step s := rfl
  simp only [Host.Core.run, h']
  cases step s <;> rfl

end Sys2Proof.Machine
end

