-- ==== Sys2Proof/Laws/Values.lean ====
section
/-!
SUPPORT. The bit fields as arithmetic: what the cut and joined fields of the formats and of the unpacker are as
numbers (spec/00_scope.md rule R7), so that later proofs can go on with omega.
-/

namespace Sys2Proof

theorem opField_eq_ofNat (w : CmdWord) : opField w = BitVec.ofNat 3 (w.toNat / 256) := by
  apply BitVec.eq_of_toNat_eq
  simp [opField, BitVec.extractLsb'_toNat, Nat.shiftRight_eq_div_pow]

theorem argField_eq_ofNat (w : CmdWord) : argField w = BitVec.ofNat 8 w.toNat := by
  apply BitVec.eq_of_toNat_eq
  simp [argField]

/-- A CMD word is its two fields (R53). -/
theorem cmdWord_opField_argField (w : CmdWord) : cmdWord (opField w) (argField w) = w := by
  apply BitVec.eq_of_toNat_eq
  have := w.isLt
  rw [cmdWord_toNat, opField_eq_ofNat, argField_eq_ofNat]
  simp; omega

theorem decodeCmd_cmdWord (op : BitVec 3) (arg : BitVec 8) :
    decodeCmd (cmdWord op arg) =
      if op = 0b000#3 then .ok .nop
      else if op = 0b001#3 then .ok (.feed arg)
      else if op = 0b010#3 then .ok (.rdtop arg)
      else if op = 0b011#3 then .ok (.rdlast arg)
      else if op = 0b100#3 then .ok .clr
      else .error (.reservedOpcode op) := by
  simp only [decodeCmd, opField_cmdWord, argField_cmdWord]

namespace Machine

/-- The Phase B value as a number (R70). -/
theorem phaseBValue_toNat (held b : Byte) :
    (phaseBValue held b).toNat = 16 * held.toNat + b.toNat / 16 := by
  have hb := b.isLt
  rw [phaseBValue, BitVec.toNat_append, Nat.shiftLeft_eq, Nat.mul_comm,
    ← Nat.two_pow_add_eq_or_of_lt (highNibble b).isLt]
  simp [highNibble, BitVec.extractLsb'_toNat, Nat.shiftRight_eq_div_pow]; omega

/-- The Phase C value as a number (R71). -/
theorem phaseCValue_toNat (held b : Byte) :
    (phaseCValue held b).toNat = 256 * (held.toNat % 16) + b.toNat := by
  rw [phaseCValue, BitVec.toNat_append, Nat.shiftLeft_eq, Nat.mul_comm,
    ← Nat.two_pow_add_eq_or_of_lt b.isLt]
  simp [lowNibble]

/-- What Phase B keeps, as a number (R70). -/
theorem keptNibble_toNat (b : Byte) : ((lowNibble b).setWidth 8).toNat = b.toNat % 16 := by
  simp [lowNibble]; omega

end Machine

end Sys2Proof
end

