-- ==== Sys2Proof/Tests/Slice0.lean ====
section
/-!
SUPPORT. Tests of single operations on small states, with results from spec/95_test_vectors.md, and for each
statement that has hypotheses a state and operands that meet them together.
-/

namespace Sys2Proof.Tests

open Sys2Proof Sys2Proof.Machine Sys2Proof.Safety

/-- Numbers as slots; a missing one is a slot without a value. -/
def slots (l : List (Option Nat)) : List Slot := l.map fun x => x.map (BitVec.ofNat 12)

/-- A core of capacity `k + 1` in which only the seven items differ from reset. -/
def core (k : Fin 256) (p : PendingBits) (held : Byte) (top : List (Option Nat)) (tn : Nat)
    (last : List (Option Nat)) (cur ln : Nat) : State :=
  { State.resetFor ⟨k⟩ with
    pendingBits := p, pendingValue := held, top := slots top, topCount := tn, last := slots last
    lastCursor := cur, lastCount := ln }

/-- The state of vectors R1 to R8, K = 3: after the values 5, 1, 9, 2, 8. -/
def full3 : State :=
  core 2 .zero 0 [some 5, some 8, some 9] 3 [some 2, some 8, some 9] 2 3

/-- The state of vectors R9 to R13, K = 3: after the values 5, 1. -/
def part3 : State := core 2 .zero 0 [some 1, some 5, none] 2 [some 5, some 1, none] 2 2

/-- K = 3 in Phase B with the byte 0x00 pending, and a full tracker whose minimum is 5. -/
def phaseB3 : State := { full3 with pendingBits := .eight, pendingValue := 0x00 }

/-- K = 3 in Phase C with the nibble 0xD pending. -/
def phaseC3 : State := { full3 with pendingBits := .four, pendingValue := 0x0D }

/-- K = 1, full, holding 4 (vectors T21, T22, L6). -/
def full1 : State := core 0 .zero 0 [some 4] 1 [some 4] 0 1

/-- K = 3, reset. -/
def reset3 : State := State.resetFor ⟨2⟩

/-- A state with the host's next edges. -/
def withEdges (s : State) (es : List Edge) : State := { s with port := es }

/-- The next state of an outcome. -/
def nextOf (o : Host.Outcome State Fault Refusal) : Option State :=
  match o with
  | .next s => some s
  | .fault _ => none
  | .refused _ => none

/-- The refusal of an outcome. -/
def refusalOf (o : Host.Outcome State Fault Refusal) : Option Refusal :=
  match o with
  | .next _ => none
  | .fault _ => none
  | .refused r => some r

/-! ### Well-formedness: an ill-formed term for each check -/

theorem test_micro_operations_not_presentable :
    Instr.presentable (.consider 1) = false ∧ Instr.presentable (.record 1) = false ∧
      Instr.presentable (.feed 1) = true := by decide

theorem test_capacity_refused : legalK 0 = false ∧ legalK 257 = false ∧ legalK 1 = true ∧
    legalK 256 = true ∧ Config.ofK 0 = none ∧ Config.ofK 257 = none := by decide

theorem test_numbers_outside_formats :
    isCmdNumber 0x800 = false ∧ isVbusNumber 0x0FFF = false ∧ isVbusNumber 0x2000 = false ∧
      decodeTableWord 16 0x800 = none ∧ decodeTableWord 16 0x2000 = none := by decide

theorem test_script_refuses :
    (Line.op (.record 3)).expand reset3 = none ∧ (Line.push2 1 2).expand phaseB3 = none := by decide

/-! ### Decoding: words written out bit by bit from rules R53, R54 and R58 -/

theorem test_decode_nop : decodeCmd 0b00010100101 = .ok .nop := rfl

theorem test_decode_feed : decodeCmd 0b00110101011 = .ok (.feed 0xAB) := rfl

theorem test_decode_rdtop : decodeCmd 0b01000011111 = .ok (.rdtop 31) := rfl

theorem test_decode_rdlast : decodeCmd 0b01100011111 = .ok (.rdlast 31) := rfl

theorem test_decode_clr : decodeCmd 0b10011111111 = .ok .clr := rfl

theorem test_decode_reserved : decodeCmd 0b10100000000 = .error (.reservedOpcode 5) := rfl

theorem test_decode_consider_record :
    decodeVbus 0b1101010111100 = [.consider 0xABC, .record 0xABC] ∧ decodeVbus 0b0101010111100 = [] ∧
      decodeTableWord 16 0x1ABC = some (.consider 0xABC) := by decide

/-! ### One operation (spec/95_test_vectors.md) -/

/-- Vector X2. -/
theorem test_nop : exec .nop full3 = .next full3 := rfl

/-- Vector S1, Phase B. -/
theorem test_feed_phase_b : (nextOf (exec (.feed 0xCD) (core 2 .eight 0xAB [none, none, none] 0
    [none, none, none] 0 0))).map (fun s => (s.rsp, s.pendingBits, s.pendingValue, s.top)) =
    some (some 0xABC, .four, 0x0D, slots [some 0xABC, none, none]) := by decide

/-- Vector S1, Phase C; the value 0xDEF evicts the 5. -/
theorem test_feed_phase_c : (nextOf (exec (.feed 0xEF) phaseC3)).map
    (fun s => (s.rsp, s.pendingBits, s.top, s.last)) =
    some (some 0xDEF, .zero, slots [some 8, some 9, some 0xDEF],
      slots [some 2, some 8, some 0xDEF]) := by decide

/-- Vectors R2 and R3. -/
theorem test_rdtop : (nextOf (exec (.rdtop 2) full3)).map State.rsp = some (some 9) ∧
    (nextOf (exec (.rdtop 3) full3)).map State.rsp = some none := by decide

/-- Vectors R6 and R11: the cursor is added only once the buffer is full. -/
theorem test_rdlast : (nextOf (exec (.rdlast 1) full3)).map State.rsp = some (some 2) ∧
    (nextOf (exec (.rdlast 0) part3)).map State.rsp = some (some 5) := by decide

/-- Vector X5. -/
theorem test_clr : nextOf (exec .clr phaseC3) = some reset3 := by decide

/-- Vectors T10 and T15: replace in the middle, and replace on a tie. -/
theorem test_consider_replace :
    (nextOf (exec (.consider 8) (core 2 .zero 0 [some 2, some 5, some 9] 3 [none, none, none] 0 0))).map
      State.top = some (slots [some 5, some 8, some 9]) ∧
    (nextOf (exec (.consider 8) full3)).map State.top = some (slots [some 8, some 8, some 9]) := by decide

/-- Vectors T8 and T13: everything qualifies below capacity, and the minimum itself does not at capacity. -/
theorem test_consider_qualify :
    (nextOf (exec (.consider 0) (core 3 .zero 0 [some 3, some 5, some 5, none] 3
      [none, none, none, none] 0 0))).map State.top = some (slots [some 0, some 3, some 5, some 5]) ∧
    nextOf (exec (.consider 5) full3) = some full3 := by decide

/-- Vectors L2 and L4: the cursor wraps, before and after the buffer is full. -/
theorem test_record_wraps :
    (nextOf (exec (.record 9) part3)).map (fun s => (s.last, s.lastCursor, s.lastCount)) =
      some (slots [some 5, some 1, some 9], 0, 3) ∧
    (nextOf (exec (.record 3) full3)).map (fun s => (s.last, s.lastCursor, s.lastCount)) =
      some (slots [some 2, some 8, some 3], 0, 3) := by decide

/-- Vector L6, K = 1. -/
theorem test_record_one : nextOf (exec (.record 4) full1) = some full1 := by decide

/-- The first step after reset runs the placed operation: FEED, then a VBUS word for both trackers. -/
theorem test_first_step :
    (nextOf (step (State.reset.withFetchWord 16 0x1AB))).map (fun s => (s.pendingBits, s.pendingValue)) =
      some (.eight, 0xAB) ∧
    (nextOf (step (State.reset.withFetchWord 16 0x1ABC))).map
      (fun s => (s.top.head?, s.topCount, s.last.head?, s.lastCount, s.vbus)) =
      some (some (some 0xABC), 1, some (some 0xABC), 1, 0) := by decide

/-- With nothing presented the reset state holds (R111). -/
theorem test_reset_holds : nextOf (step State.reset) = some State.reset := by decide

/-! ### Witnesses: the hypotheses of the statements, met -/

theorem witness_decoder_opcodes :
    (0x0FF : CmdWord).toNat / 256 = 0 ∧ (0x100 : CmdWord).toNat / 256 = 1 ∧
      (0x2FF : CmdWord).toNat / 256 = 2 ∧ (0x300 : CmdWord).toNat / 256 = 3 ∧
      (0x4FF : CmdWord).toNat / 256 = 4 ∧ 5 ≤ (0x500 : CmdWord).toNat / 256 ∧
      (2 ^ 11 ≤ 0x800 % 2 ^ 16 ∧ 0x800 % 2 ^ 16 < 2 ^ 12) ∧ 2 ^ 13 ≤ 0x2000 % 2 ^ 16 := by decide

theorem witness_decodeEncode :
    Instr.presentable (.rdlast 255) = true ∧ Instr.presentable (.record 4095) = false := by decide

theorem witness_canonical :
    decodeCmd 0x2FF = .ok (.rdtop 255) ∧ encodeCmd (.rdtop 255) = some 0x2FF ∧
      decodeCmd 0x4A5 = .ok .clr ∧ encodeCmd .clr = some 0x400 := ⟨rfl, rfl, rfl, rfl⟩

/-- IW and CW of the parameter table (spec/00_scope.md section 5) at K = 1, 2, 32, 33 and 256. -/
theorem test_widths : ([1, 2, 32, 33, 256].filterMap Config.ofK).map (fun c => (c.iw, c.cw)) =
    [(1, 1), (1, 2), (5, 6), (6, 6), (8, 9)] := by decide

theorem witness_capacity :
    (Config.ofK 1).map Config.K = some 1 ∧ (Config.ofK 256).map Config.K = some 256 := by decide

theorem witness_runInv : RunInv full3 ∧ RunInv part3 ∧ RunInv full1 ∧ RunInv phaseC3 ∧ RunInv reset3 :=
  ⟨by decide, by decide, by decide, by decide, by decide⟩

theorem witness_phases : reset3.pendingBits = .zero ∧ phaseB3.pendingBits = .eight ∧
    phaseC3.pendingBits = .four ∧ phaseB3.pendingBits ≠ .zero := by decide

theorem witness_feed_outcomes :
    (∃ t, exec (.feed 0xFF) reset3 = .next t ∧ t.rsp = none) ∧
      ∃ t, exec (.feed 0x50) phaseB3 = .next t ∧ t.rsp = some 5 := ⟨⟨_, rfl, rfl⟩, ⟨_, rfl, rfl⟩⟩

theorem witness_consider_empty : reset3.topCount = 0 ∧ reset3.top.length = reset3.K := by decide

theorem witness_insertionIndex :
    Sorted full3 ∧ insertionIndex full3.top 8 full3.topCount = 1 ∧
      insertionIndex full3.top 10 full3.topCount = full3.topCount ∧
      insertionIndex full3.top 0 full3.topCount = 0 := by decide

theorem witness_consider_grows :
    part3.top.length = part3.K ∧ part3.topCount < part3.K ∧
      insertionIndex part3.top 3 part3.topCount = 1 ∧ reset3.topCount < reset3.K := by decide

theorem witness_consider_replaces :
    full3.top.length = full3.K ∧ full3.topCount = full3.K ∧ full3.topSlot 0 < 10 ∧
      insertionIndex full3.top 10 full3.topCount = 3 ∧ full1.top.length = full1.K ∧
      full1.topCount = full1.K ∧ full1.topSlot 0 < 9 := by decide

theorem witness_consider_discards :
    phaseB3.topCount = phaseB3.K ∧ 5 ≤ phaseB3.topSlot 0 ∧
      ∃ t, exec (.feed 0x50) phaseB3 = .next t ∧ t.rsp = some 5 := ⟨by decide, by decide, _, rfl, rfl⟩

theorem witness_qualification :
    TopInv part3 ∧ part3.topCount < part3.K ∧ TopInv full3 ∧ full3.topSlot 0 < 6 ∧
      part3.topValues.count 5 = 1 ∧ full3.topValues.count 9 = 1 ∧
      ¬ (full3.topCount < full3.K ∨ full3.topSlot 0 < 5) := by decide

theorem witness_keepsLargest :
    TopInv full3 ∧ full3.topValues = largest full3.K [5, 1, 9, 2, 8] ∧ TopInv part3 ∧
      part3.topValues = largest part3.K [5, 1] := by decide

theorem witness_monotone : TopInv full3 ∧ full3.topCount = full3.K ∧
    exec (.consider 5) full3 = .next full3 := ⟨by decide, by decide, rfl⟩

theorem witness_readsOnlyEntries :
    let s' := { part3 with top := slots [some 1, some 5, some 7] }
    part3.top.length = part3.K ∧ s'.top.length = s'.K ∧ s'.cfg = part3.cfg ∧
      s'.topCount = part3.topCount ∧ part3.topCount ≤ part3.K ∧ s'.top ≠ part3.top ∧
      ∀ j < part3.topCount, s'.top.getD j none = part3.top.getD j none := by decide

theorem witness_ties :
    let g := core 3 .zero 0 [some 3, some 5, some 5, none] 3 [none, none, none, none] 0 0
    let r := core 3 .zero 0 [some 3, some 5, some 5, some 7] 4 [none, none, none, none] 0 0
    TopInv g ∧ g.topCount < g.K ∧ countBelow g 5 = 1 ∧ countUpTo g 5 = 3 ∧
      TopInv r ∧ r.topCount = r.K ∧ r.topSlot 0 < 5 ∧ countBelow r 5 = 1 ∧ countUpTo r 5 = 3 := by decide

theorem witness_comparator :
    TopInv part3 ∧ part3.topCount < part3.K ∧ ltBit part3 3 0 ∧ ¬ ltBit part3 3 1 ∧ ¬ ltBit part3 3 2 ∧
      TopInv full3 ∧ full3.topCount = full3.K ∧ ltBit full3 9 0 ∧ ltBit full3 9 1 ∧ ¬ ltBit full3 9 2 ∧
      ¬ ltBit full3 5 0 := by decide

theorem witness_record :
    full3.last.length = full3.K ∧ full3.lastCursor < full3.K ∧ full3.lastCount ≤ full3.K ∧
      full3.lastCursor + 1 = full3.K ∧ full1.lastCursor < full1.K ∧ part3.lastCount < part3.K := by decide

theorem witness_window :
    LastInv full3 ∧ full3.lastValues = latest full3.K [5, 1, 9, 2, 8] ∧ full3.lastCount = full3.K ∧
      LastInv part3 ∧ part3.lastValues = latest part3.K [5, 1] ∧ part3.lastCount < part3.K := by decide

theorem witness_order : ∀ i ∈ [Instr.record 1, .consider 2, .record 3], i.presentable = false := by decide

theorem witness_rdtop : TopInv full3 ∧ (2 : Index).toNat < full3.topCount ∧
    full3.topCount ≤ (3 : Index).toNat := by decide

theorem witness_rdlast :
    LastInv part3 ∧ (1 : Index).toNat < part3.lastCount ∧ part3.lastCount < part3.K ∧
      part3.lastCount ≤ (2 : Index).toNat ∧ LastInv full3 ∧ (0 : Index).toNat < full3.lastCount ∧
      full3.lastCount = full3.K ∧ (2 : Index).toNat < full3.lastCount ∧
      full3.lastCount ≤ (3 : Index).toNat := by decide

theorem witness_reads : (∀ j ∈ [Instr.nop, .rdtop 0, .rdlast 255], readOnly j = true) ∧
    readOnly (.rdlast 1) = true := by decide

theorem witness_nop_edge :
    vbusValid reset3.vbus = false ∧ reset3.edge.rst = false ∧ reset3.edge.cmdValid = false := by decide

theorem witness_frames :
    (∃ t, exec (.feed 0xFF) reset3 = .next t) ∧ (∃ t, exec (.consider 9) part3 = .next t) ∧
      (∃ t, exec (.record 9) part3 = .next t) ∧ (∃ t, exec (.rdtop 0) part3 = .next t) ∧
      ∃ t, exec .clr full3 = .next t ∧ t.lastCursor ≠ full3.lastCursor :=
  ⟨⟨_, rfl⟩, ⟨_, rfl⟩, ⟨_, rfl⟩, ⟨_, rfl⟩, _, rfl, by decide⟩

theorem witness_step_command :
    let s := withEdges full3 [commandEdge 0x201, idleEdge]
    vbusValid s.vbus = false ∧ s.port = commandEdge 0x201 :: [idleEdge] ∧ s.busy = 0 ∧
      s.waiting = none ∧ decodeCmd 0x201 = .ok (.rdtop 1) := ⟨rfl, rfl, rfl, rfl, rfl⟩

theorem witness_step_command_waited :
    let s := { withEdges full3 [commandEdge 0x201] with waiting := some 0x201 }
    vbusValid s.vbus = false ∧ s.port = commandEdge 0x201 :: [] ∧ s.busy = 0 ∧
      s.waiting = some (commandEdge 0x201).cmd := ⟨rfl, rfl, rfl, rfl⟩

theorem witness_bus_word : (full3.setBus (vbusOf (some 7))).vbus = vbusOf (some 7) := rfl

theorem witness_reset_edge :
    let s := withEdges full3 [⟨true, true, 0x1AB⟩]
    vbusValid s.vbus = false ∧ s.port = ⟨true, true, 0x1AB⟩ :: [] := ⟨rfl, rfl⟩

/-- V12: a command that was not taken waits, and is let go when the host withdraws it. -/
theorem witness_hold_waiting :
    let s := { withEdges full3 [commandEdge 0x1AB] with busy := 1 }
    let u := { withEdges full3 [idleEdge] with waiting := some 0x1AB }
    s.edge.cmdValid = true ∧ s.cmdReady = false ∧ s.waiting = none ∧ u.edge.cmdValid = false ∧
      (nextOf (step s)).map State.waiting = some (some 0x1AB) ∧
      (nextOf (step u)).map State.waiting = some none := by decide

theorem witness_hold :
    let s := { withEdges full3 [commandEdge 0x1AB] with busy := 1, waiting := some 0x1AB }
    vbusValid s.vbus = false ∧ s.edge.rst = false ∧ s.cmdReady = false ∧
      s.waiting = some s.edge.cmd := by decide

theorem witness_refused_change :
    let s := { withEdges full3 [commandEdge 0x1AB] with waiting := some 0x1AC }
    vbusValid s.vbus = false ∧ s.edge.rst = false ∧ s.edge.cmdValid = true ∧
      s.waiting = some 0x1AC ∧ 0x1AC ≠ s.edge.cmd ∧
      refusalOf (step s) = some .cmdChangedWhileWaiting := by decide

theorem witness_refused_reserved :
    let s := withEdges full3 [commandEdge 0x6AB]
    vbusValid s.vbus = false ∧ s.edge.rst = false ∧ s.waiting = none ∧ s.edge.cmdValid = true ∧
      s.busy = 0 ∧ 5 ≤ s.edge.cmd.toNat / 256 ∧
      refusalOf (step s) = some (.reservedOpcode 6) := by decide

theorem witness_not_refused :
    let s := withEdges full3 [commandEdge 0x4FF]
    vbusValid s.vbus = false ∧ s.edge.rst = false ∧ s.waiting = none ∧
      s.edge.cmd.toNat / 256 < 5 := by decide

theorem witness_response :
    let s := withEdges full3 [commandEdge 0x300]
    vbusValid s.vbus = false ∧ ∃ t, step s = .next t ∧ t.rsp = some 9 := ⟨rfl, _, rfl, rfl⟩

theorem witness_no_response :
    let s := withEdges full3 [commandEdge 0x303]
    vbusValid s.vbus = false ∧ s.rspValid = false ∧ ∃ t, step s = .next t := ⟨rfl, rfl, _, rfl⟩

theorem witness_one_command_one_step :
    let is := [Instr.feed 0xAB, .nop, .rdtop 0]
    let s := withEdges reset3 (presentAll is ++ [idleEdge])
    vbusValid s.vbus = false ∧ (∀ i ∈ is, i.presentable = true) ∧
      s.port = presentAll is ++ [idleEdge] ∧ s.busy = 0 ∧ s.stalls = [] ∧ s.waiting = none := by decide

theorem witness_presented_command :
    let s := { withEdges reset3 (List.replicate 3 (commandEdge 0x1AB) ++ []) with busy := 2 }
    vbusValid s.vbus = false ∧ s.port = List.replicate (s.busy + 1) (commandEdge 0x1AB) ++ [] ∧
      s.waiting = none ∧ decodeCmd 0x1AB = .ok (.feed 0xAB) := ⟨rfl, rfl, rfl, rfl⟩

theorem witness_step_inv : RunInv (withEdges phaseB3 [commandEdge 0x150]) ∧
    ∃ t, step (withEdges phaseB3 [commandEdge 0x150]) = .next t ∧ t.last ≠ phaseB3.last :=
  ⟨by decide, _, rfl, by decide⟩

theorem witness_step_cleared : RunInv (withEdges full3 [commandEdge 0x400]) ∧
    ∃ t, step (withEdges full3 [commandEdge 0x400]) = .next t ∧ Cleared t := ⟨by decide, _, rfl, by decide⟩

theorem witness_stream : Cleared reset3 ∧ reset3.pendingBits = .zero ∧
    streamValues [0xAB, 0xCD, 0xEF, 0x12] = [0xABC, 0xDEF] ∧ latest 2 [1, 2, 3] = [2, 3] ∧
    largest 3 [5, 1, 9, 2, 8, 3] = [5, 8, 9] := by decide

end Sys2Proof.Tests
end

section
/-!
The scope family (spec/00_scope.md): the legal capacities (O5), and one accepted command is one `exec`, for one
step (O38), for a list of commands on consecutive edges (O44), and for the two counts (O48). The layer below them:
what every operation leaves at the ports, that it neither reads the ports nor, as a command, the old response,
and that the decoder gives back a presented command.
-/

namespace Sys2Proof.Machine

open Sys2Proof Sys2Proof.Safety

/-! ### The capacity (R5, R6) -/

theorem ofK_of_legal (k : Nat) (h : 1 ≤ k ∧ k ≤ 256) : ∃ c, Config.ofK k = some c ∧ c.K = k :=
  ⟨_, dif_pos h, Nat.sub_add_cancel h.1⟩

theorem ofK_of_not_legal (k : Nat) (h : ¬ (1 ≤ k ∧ k ≤ 256)) : Config.ofK k = none := dif_neg h

theorem capacity_bounds (c : Config) : 1 ≤ c.K ∧ c.K ≤ 256 := ⟨Nat.succ_pos _, c.kMinusOne.isLt⟩

/-- Settles O5. -/
theorem capacityRange : Obligations.CapacityRange := by
  unfold Obligations.CapacityRange
  exact ⟨fun k h1 h256 => ofK_of_legal k ⟨h1, h256⟩, fun k h => ofK_of_not_legal k (by omega),
    capacity_bounds, rfl, rfl⟩

/-! ### A step that accepts a command (R11, R52) -/

theorem edge_of_port (s : State) (e : Edge) (rest : List Edge) (h : s.port = e :: rest) : s.edge = e := by
  simp [State.edge, h]

theorem cmdReady_of_idle (s : State) (hr : s.edge.rst = false) (hb : s.busy = 0) : s.cmdReady = true := by
  simp [State.cmdReady, hr, hb]

/-- The ports after an edge on which the core is ready: no command waits, and the next delay is chosen. -/
theorem clocked_of_ready (s : State) (hr : s.edge.rst = false) (hb : s.busy = 0) :
    s.clocked = (s.setPorts s.port.tail (s.stalls.headD 0) s.stalls.tail none).setRsp none := by
  simp [State.clocked, State.nextBusy, State.nextStalls, State.nextWaiting, cmdReady_of_idle s hr hb, hb]

/-- Settles O38: the premises are those under which an edge accepts its command and keeps the handshake. -/
theorem stepRunsDecodedCommand : Obligations.StepRunsDecodedCommand := by
  unfold Obligations.StepRunsDecodedCommand
  intro s e rest i hbus hport hrst hvalid hbusy hwait hdec
  have he := edge_of_port s e rest hport
  rw [← he] at hrst hvalid hwait hdec
  have hacc : s.accepts = true := by simp [State.accepts, hvalid, cmdReady_of_idle s hrst hbusy]
  rw [step_accept s hbus hrst (breaksHandshake_eq_false s (.inr hwait)) hacc i hdec,
    clocked_of_ready s hrst hbusy, hport]
  rfl

/-! ### Operations and the ports -/

/-- No operation writes the parameters, the ports or the bus. -/
theorem exec_frame (i : Instr) (s t : State) (h : exec i s = .next t) : t.cfg = s.cfg ∧ SamePorts s t := by
  cases i with
  | feed b =>
    obtain ⟨p, q, ⟨-, hf⟩ | ⟨-, v, hf⟩⟩ := exec_feed_cases s b
    all_goals
      rw [hf] at h; cases h
      exact ⟨rfl, rfl, rfl, rfl, rfl, rfl⟩
  | nop | rdtop | rdlast | clr | consider | record => cases h; exact ⟨rfl, rfl, rfl, rfl, rfl, rfl⟩

theorem tracked_setPorts (s : State) (bus : VbusWord) (es : List Edge) (n : Nat) (ds : List Nat)
    (w : Option CmdWord) : (s.setPorts es n ds w).tracked bus = (s.tracked bus).setPorts es n ds w := by
  unfold State.tracked; split <;> rfl

/-- No operation reads the ports: with other ports it does the same and leaves those. -/
theorem exec_setPorts (i : Instr) (s t : State) (h : exec i s = .next t) (es : List Edge) (n : Nat)
    (ds : List Nat) (w : Option CmdWord) :
    exec i (s.setPorts es n ds w) = .next (t.setPorts es n ds w) := by
  cases i with
  | feed b =>
    cases h
    exact congrArg (fun u => Host.Outcome.next (u.setRsp (vbusResponse (s.unpack b).bus)))
      (tracked_setPorts (s.setUnpacker (s.unpack b).pendingBits (s.unpack b).pendingValue) _ es n ds w)
  | nop | rdtop | rdlast | clr | consider | record => cases h; rfl

theorem tracked_setRsp_setRsp (s : State) (bus : VbusWord) (r r' : Option Value) :
    ((s.setRsp r).tracked bus).setRsp r' = (s.tracked bus).setRsp r' := by
  unfold State.tracked; split <;> rfl

/-- A command writes its own response and never reads the old one (R62). -/
theorem exec_setRsp (i : Instr) (s : State) (r : Option Value) (hp : i.presentable = true) :
    exec i (s.setRsp r) = exec i s := by
  cases i with
  | feed b =>
    exact congrArg Host.Outcome.next
      (tracked_setRsp_setRsp (s.setUnpacker (s.unpack b).pendingBits (s.unpack b).pendingValue) _ r _)
  | nop | rdtop | rdlast | clr => rfl
  | consider | record => cases hp

theorem exec_total (i : Instr) (s : State) : ∃ t, exec i s = .next t := by
  cases i <;> exact ⟨_, rfl⟩

/-! ### Commands on consecutive edges (R11, R139) -/

/-- A command has a word, and the decoder gives the command back from it (R58, R64). -/
theorem decodeCmd_encodeCmd (i : Instr) (hp : i.presentable = true) :
    ∃ w, encodeCmd i = some w ∧ decodeCmd w = .ok i := by
  cases i with
  | nop | feed | rdtop | rdlast | clr => exact ⟨_, rfl, by rw [decodeCmd_cmdWord]; rfl⟩
  | consider | record => cases hp

theorem presentAll_cons (i : Instr) (is : List Instr) (w : CmdWord) (h : encodeCmd i = some w) :
    presentAll (i :: is) = commandEdge w :: presentAll is := by
  simp [presentAll, h]

/-- The core is ready at every edge to come: no value on the bus, no delay now or later, no command waiting. -/
def AlwaysReady (s : State) : Prop :=
  vbusValid s.vbus = false ∧ s.busy = 0 ∧ s.stalls = [] ∧ s.waiting = none

/-- A ready core performs a presented command in one step, pops its edge and stays ready. -/
theorem step_presented (i : Instr) (s : State) (w : CmdWord) (rest : List Edge) (hs : AlwaysReady s)
    (hp : i.presentable = true) (hd : decodeCmd w = .ok i) (hport : s.port = commandEdge w :: rest) :
    ∃ t, exec i s = .next t ∧ step s = .next (t.setPorts rest 0 [] none) ∧
      AlwaysReady (t.setPorts rest 0 [] none) := by
  obtain ⟨hbus, hbusy, hstalls, hwait⟩ := hs
  obtain ⟨t, ht⟩ := exec_total i s
  obtain ⟨-, -, -, -, -, hvbus⟩ := exec_frame i s t ht
  refine ⟨t, ht, ?_, by simpa [AlwaysReady, hvbus] using hbus⟩
  calc step s
      = exec i ((s.setPorts rest (s.stalls.headD 0) s.stalls.tail none).setRsp none) :=
        stepRunsDecodedCommand s _ rest i hbus hport rfl rfl hbusy (.inl hwait) hd
    _ = exec i (s.setPorts rest 0 [] none) := by rw [exec_setRsp i _ none hp, hstalls]; rfl
    _ = .next (t.setPorts rest 0 [] none) := exec_setPorts i s t ht rest 0 [] none

/-- A ready core has no delays and no waiting command, so only its edges to come can differ. -/
theorem AlwaysReady.setPorts_eq {s : State} (hs : AlwaysReady s) (rest : List Edge) :
    s.setPorts rest 0 [] none = { s with port := rest } := by
  obtain ⟨-, hbusy, hstalls, hwait⟩ := hs
  rw [← hbusy, ← hstalls, ← hwait]; rfl

/-- Refinement of the operation level by the port level (R11), by induction on the commands. -/
theorem run_presentAll (is : List Instr) (s : State) (rest : List Edge) (hs : AlwaysReady s)
    (hp : ∀ i ∈ is, i.presentable = true) (hport : s.port = presentAll is ++ rest) :
    Host.Core.run Sys2Proof.core is.length s = execAll is (s.setPorts rest 0 [] none) := by
  induction is generalizing s with
  | nil =>
    obtain rfl : s.port = rest := hport
    rw [hs.setPorts_eq]; rfl
  | cons i is ih =>
    obtain ⟨hi, his⟩ := List.forall_mem_cons.mp hp
    obtain ⟨w, hw, hd⟩ := decodeCmd_encodeCmd i hi
    rw [presentAll_cons i is w hw] at hport
    obtain ⟨t, ht, hstep, hready⟩ := step_presented i s w (presentAll is ++ rest) hs hi hd hport
    rw [List.length_cons, run_succ_of_next s _ is.length hstep, ih _ hready his rfl,
      execAll_cons_next i is _ _ (exec_setPorts i s t ht rest 0 [] none)]
    rfl

/-- Settles O44, from `run_presentAll`: a core with no delays is ready at every edge. -/
theorem oneCommandIsOneStep : Obligations.OneCommandIsOneStep := by
  unfold Obligations.OneCommandIsOneStep
  intro is s rest hbus hp hport hbusy hstalls hwait
  have hs : AlwaysReady s := ⟨hbus, hbusy, hstalls, hwait⟩
  rw [run_presentAll is s rest hs hp hport, hs.setPorts_eq]

/-! ### The counts (R5, R10, R18, R24) -/

/-- From `s` to `t` the parameters stay, and each count rises by at most one, stays within K, and falls only to the
cleared state. -/
def CountsAdvance (s t : State) : Prop :=
  t.cfg = s.cfg ∧
    t.topCount ≤ s.topCount + 1 ∧ t.topCount ≤ t.K ∧ (s.topCount ≤ t.topCount ∨ Cleared t) ∧
    t.lastCount ≤ s.lastCount + 1 ∧ t.lastCount ≤ t.K ∧ (s.lastCount ≤ t.lastCount ∨ Cleared t)

theorem CountsAdvance.of_cleared {s t : State} (hcfg : t.cfg = s.cfg) (h : Cleared t) : CountsAdvance s t := by
  have ⟨_, _, htop, hlast, _⟩ := h
  exact ⟨hcfg, by omega, by omega, .inr h, by omega, by omega, .inr h⟩

/-- Each count stays, or it rises by one up to K. -/
theorem CountsAdvance.of_counts {s t : State} (hcfg : t.cfg = s.cfg) (hT : s.topCount ≤ s.K)
    (hL : s.lastCount ≤ s.K) (htop : t.topCount = s.topCount ∨ t.topCount = min (s.topCount + 1) s.K)
    (hlast : t.lastCount = s.lastCount ∨ t.lastCount = min (s.lastCount + 1) s.K) : CountsAdvance s t := by
  have hK : t.K = s.K := congrArg Config.K hcfg
  exact ⟨hcfg, by omega, by omega, .inl (by omega), by omega, by omega, .inl (by omega)⟩

theorem cleared_resetTransition (s : State) : Cleared s.resetTransition := ⟨rfl, rfl, rfl, rfl, rfl, rfl, rfl⟩

theorem exec_countsAdvance (i : Instr) (s t : State) (hT : s.topCount ≤ s.K) (hL : s.lastCount ≤ s.K)
    (h : exec i s = .next t) : CountsAdvance s t := by
  have hcfg := (exec_frame i s t h).1
  cases i with
  | nop | rdtop | rdlast => cases h; exact .of_counts hcfg hT hL (.inl rfl) (.inl rfl)
  | clr => cases h; exact .of_cleared hcfg (cleared_resetTransition s)
  | consider v => cases h; exact .of_counts hcfg hT hL (.inr (considered_topCount s v hT)) (.inl rfl)
  | record v => cases h; exact .of_counts hcfg hT hL (.inl rfl) (.inr rfl)
  | feed b =>
    obtain ⟨p, q, ⟨-, hf⟩ | ⟨-, v, hf⟩⟩ := exec_feed_cases s b
    · rw [hf] at h; cases h
      exact .of_counts hcfg hT hL (.inl rfl) (.inl rfl)
    · rw [hf] at h; cases h
      exact .of_counts hcfg hT hL (.inr (considered_topCount (s.setUnpacker p q) v hT)) (.inr rfl)

/-- Settles O48: the bus is empty in a run, so a step is a reset, one command or a hold. -/
theorem stepCountsMonotone : Obligations.StepCountsMonotone := by
  unfold Obligations.StepCountsMonotone
  intro s t hinv hstep
  obtain ⟨-, ⟨⟨-, hT, -⟩, -⟩, ⟨⟨-, hL, -⟩, -⟩, -, hbus⟩ := hinv
  obtain ⟨hvalid, -⟩ | ⟨-, -, rfl⟩ | ⟨-, -, -, -, i, -, hexec⟩ | ⟨-, -, -, -, rfl⟩ := step_cases s t hstep
  · rw [hbus] at hvalid; cases hvalid
  · exact CountsAdvance.of_cleared rfl (cleared_resetTransition s.clocked)
  · exact exec_countsAdvance i s.clocked t hT hL hexec
  · exact CountsAdvance.of_counts rfl hT hL (.inl rfl) (.inl rfl)

end Sys2Proof.Machine
end

section
/-!
The trackers' layer of the state family (spec/10_state.md): the two collections as lists. CONSIDER inserts in order
and drops the smallest of K + 1 entries, RECORD appends and drops the oldest of K + 1 values; so both keep their
invariants, and what a collection holds of a stream is known.
-/

namespace Sys2Proof.Machine

open Sys2Proof Sys2Proof.Safety

/-! ### CONSIDER, entry by entry (R82, R83) -/

theorem topSlot_considered_grow (s : State) (v : Value) (h : FilledTo s.top s.K s.topCount)
    (hk : s.topCount < s.K) (j : Nat) (hj : j ≤ s.topCount) :
    (s.considered v).topSlot j =
      if j < insertionIndex s.top v s.topCount then s.topSlot j
      else if j = insertionIndex s.top v s.topCount then v else s.topSlot (j - 1) := by
  have hidx := insertionIndex_bound s.top v s.topCount
  have hcount : (s.considered v).topCount = s.topCount + 1 := by rw [s.considered_grow v hk]; rfl
  have hget := top_getD _ (filledTo_considered s v h) j (by omega)
  rw [s.considered_grow v hk, State.setTop_top, getD_growAt _ _ _ _ _ (by omega) hidx,
    ← s.considered_grow v hk] at hget
  obtain hlt | heq | hgt := Nat.lt_trichotomy j (insertionIndex s.top v s.topCount)
  · rw [if_neg (by omega), if_neg (by omega), top_getD s h j (by omega)] at hget
    rw [if_pos hlt, Option.some.inj hget]
  · rw [if_pos heq] at hget
    rw [if_neg (by omega), if_pos heq, ← Option.some.inj hget]
  · rw [if_neg (by omega), if_pos ⟨hgt, hj⟩, top_getD s h (j - 1) (by omega)] at hget
    rw [if_neg (by omega), if_neg (by omega), Option.some.inj hget]

theorem topSlot_considered_replace (s : State) (v : Value) (h : FilledTo s.top s.K s.topCount)
    (hk : s.topCount = s.K) (hv : s.topSlot 0 < v) (j : Nat) (hj : j < s.topCount) :
    (s.considered v).topSlot j =
      if j + 1 < insertionIndex s.top v s.topCount then s.topSlot (j + 1)
      else if j + 1 = insertionIndex s.top v s.topCount then v else s.topSlot j := by
  have hidx := insertionIndex_bound s.top v s.topCount
  have hpos := insertionIndex_pos s.top v s.topCount (by omega) hv
  have hcount : (s.considered v).topCount = s.topCount := by rw [s.considered_replace v hk hv]; rfl
  have hget := top_getD _ (filledTo_considered s v h) j (by omega)
  rw [s.considered_replace v hk hv, State.setTop_top, getD_replaceAt _ _ _ _ hpos (by omega),
    ← s.considered_replace v hk hv] at hget
  obtain hlt | heq | hgt := Nat.lt_trichotomy (j + 1) (insertionIndex s.top v s.topCount)
  · rw [if_neg (by omega), if_pos (by omega), top_getD s h (j + 1) (by omega)] at hget
    rw [if_pos hlt, Option.some.inj hget]
  · rw [if_pos (by omega)] at hget
    rw [if_neg (by omega), if_pos heq, ← Option.some.inj hget]
  · rw [if_neg (by omega), if_neg (by omega), top_getD s h j hj] at hget
    rw [if_neg (by omega), if_neg (by omega), Option.some.inj hget]

/-! ### CONSIDER as an insertion in order -/

/-- A place with no entry at or above `v` before it and none below `v` at it is where `v` is inserted in order. -/
theorem insertIdx_eq_orderedInsert (l : List Value) (i : Nat) (v : Value) (hi : i ≤ l.length)
    (hbelow : ∀ j (h : j < l.length), j < i → l[j] < v) (hat : ∀ h : i < l.length, v ≤ l[i]) :
    l.insertIdx i v = l.orderedInsert (· ≤ ·) v := by
  induction l generalizing i with
  | nil => obtain rfl : i = 0 := by simpa using hi
           rfl
  | cons a l ih =>
    cases i with
    | zero => exact (List.orderedInsert_cons_of_le _ l (hat (by simp))).symm
    | succ i =>
      have ha : ¬ v ≤ a := BitVec.not_le.mpr (hbelow 0 (by simp) (by omega))
      rw [List.insertIdx_succ_cons, List.orderedInsert_of_not_le _ l ha,
        ih i (by simpa using hi) (fun j h hj => hbelow (j + 1) (by simpa using h) (by omega))
          (fun h => hat (by simpa using h))]

theorem insertIdx_insertionIndex (s : State) (v : Value) :
    s.topValues.insertIdx (insertionIndex s.top v s.topCount) v = s.topValues.orderedInsert (· ≤ ·) v := by
  apply insertIdx_eq_orderedInsert
  · simpa using insertionIndex_bound s.top v s.topCount
  · intro j h hj
    rw [topValues_getElem]
    exact below_insertionIndex s.top v s.topCount j hj
  · intro h
    rw [topValues_getElem]
    exact BitVec.not_lt.mp (at_insertionIndex s.top v s.topCount (by simpa using h))

/-- CONSIDER inserts `v` in order and, at capacity, drops the smallest of the K + 1 entries (R82 to R84). -/
theorem topValues_considered (s : State) (v : Value) (h : FilledTo s.top s.K s.topCount) :
    (s.considered v).topValues =
      (s.topValues.orderedInsert (· ≤ ·) v).drop (s.topCount + 1 - s.K) := by
  have hcount := considered_topCount s v h.2.1
  have hidx := insertionIndex_bound s.top v s.topCount
  rw [← insertIdx_insertionIndex]
  by_cases hk : s.topCount < s.K
  · rw [Nat.sub_eq_zero_of_le hk, List.drop_zero]
    refine List.ext_getElem (by simp [List.length_insertIdx, hidx]; omega) fun j h1 h2 => ?_
    rw [topValues_length] at h1
    rw [topValues_getElem, topSlot_considered_grow s v h hk j (by omega), List.getElem_insertIdx]
    simp only [topValues_getElem, dite_eq_ite]
  · have hK : s.topCount = s.K := Nat.le_antisymm h.2.1 (by omega)
    have hpos := s.K_pos
    rw [hK, Nat.add_sub_cancel_left, ← hK, List.drop_one]
    by_cases hv : s.topSlot 0 < v
    · refine List.ext_getElem (by simp [List.length_insertIdx, hidx]; omega) fun j h1 h2 => ?_
      rw [topValues_length] at h1
      rw [topValues_getElem, topSlot_considered_replace s v h hK hv j (by omega), List.getElem_tail,
        List.getElem_insertIdx]
      simp only [topValues_getElem, dite_eq_ite, Nat.add_sub_cancel]
    · have hzero : insertionIndex s.top v s.topCount = 0 :=
        Nat.eq_zero_of_not_pos fun hp => hv (below_insertionIndex s.top v s.topCount 0 hp)
      rw [s.considered_discard v hK hv, hzero, List.insertIdx_zero, List.tail_cons]

/-! ### The Top-K invariant (R17 to R19) -/

theorem sorted_iff_pairwise (s : State) : Sorted s ↔ s.topValues.Pairwise (· ≤ ·) := by
  rw [List.pairwise_iff_getElem]
  constructor
  · intro h i j hi hj hij
    rw [topValues_getElem, topValues_getElem]
    exact topSlot_mono s h i j (by omega) (by simpa using hj)
  · intro h i hi hi'
    have hle := h i (i + 1) (by simpa using hi) (by simpa using hi') (by omega)
    rwa [topValues_getElem, topValues_getElem] at hle

theorem topInv_considered (s : State) (v : Value) (h : TopInv s) : TopInv (s.considered v) := by
  obtain ⟨hf, hs⟩ := h
  refine ⟨filledTo_considered s v hf, (sorted_iff_pairwise _).mpr ?_⟩
  rw [topValues_considered s v hf]
  exact (((sorted_iff_pairwise s).mp hs).orderedInsert v _).drop

/-- Settles O20. -/
theorem considerKeepsSorted : Obligations.ConsiderKeepsSorted := by
  unfold Obligations.ConsiderKeepsSorted
  exact fun s v h => ⟨_, exec_consider v s, topInv_considered s v h⟩

/-! ### What CONSIDER discards, and what it reads (R78, R88) -/

/-- A value greater than the minimum of a full collection changes the collection: it stands where a smaller entry
stood. -/
theorem considered_ne_self (s : State) (v : Value) (h : FilledTo s.top s.K s.topCount)
    (hk : s.topCount = s.K) (hv : s.topSlot 0 < v) : s.considered v ≠ s := by
  intro heq
  have hidx := insertionIndex_bound s.top v s.topCount
  have hpos := insertionIndex_pos s.top v s.topCount (by have := s.K_pos; omega) hv
  have hslot := topSlot_considered_replace s v h hk hv (insertionIndex s.top v s.topCount - 1) (by omega)
  have hlt : s.topSlot (insertionIndex s.top v s.topCount - 1) < v :=
    below_insertionIndex s.top v s.topCount _ (by omega)
  rw [heq, if_neg (by omega), if_pos (by omega)] at hslot
  rw [hslot] at hlt
  exact BitVec.lt_irrefl v hlt

theorem considered_eq_self_iff (s : State) (v : Value) (h : FilledTo s.top s.K s.topCount)
    (hk : s.topCount = s.K) : s.considered v = s ↔ ¬ s.topSlot 0 < v :=
  ⟨fun heq hv => considered_ne_self s v h hk hv heq, s.considered_discard v hk⟩

/-- The minimum of a full collection does not decrease (R88). -/
theorem topSlot_zero_le_considered (s : State) (v : Value) (h : TopInv s) (hk : s.topCount = s.K) :
    s.topSlot 0 ≤ (s.considered v).topSlot 0 := by
  obtain ⟨hf, hs⟩ := h
  have hidx := insertionIndex_bound s.top v s.topCount
  by_cases hv : s.topSlot 0 < v
  · rw [topSlot_considered_replace s v hf hk hv 0 (by have := s.K_pos; omega)]
    split_ifs with h1 h2
    · exact topSlot_mono s hs 0 1 (by omega) (by omega)
    · exact BitVec.le_of_lt hv
    · exact BitVec.le_refl _
  · rw [s.considered_discard v hk hv]; exact BitVec.le_refl _

/-- Settles O22: a full collection discards exactly the values up to its minimum. -/
theorem considerIsMonotone : Obligations.ConsiderIsMonotone := by
  unfold Obligations.ConsiderIsMonotone
  intro s v h
  have hcount := considered_topCount s v h.1.2.1
  have hle : s.topCount ≤ s.K := h.1.2.1
  refine ⟨_, exec_consider v s, by omega, fun hk => ?_⟩
  have hfull : (s.considered v).topCount = s.K := by omega
  have hmin := topSlot_zero_le_considered s v h hk
  refine ⟨hfull, hmin, fun w hw => ?_⟩
  have hself : s.considered w = s := by injection hw
  have hw0 := (considered_eq_self_iff s w h.1 hk).mp hself
  rw [exec_consider, (s.considered v).considered_discard w hfull fun hlt =>
    hw0 (Std.lt_of_le_of_lt hmin hlt)]

/-- `s` and `s'` have the same number of entries and the same entries, whatever their other slots hold (R78). -/
def SameEntries (s s' : State) : Prop :=
  s'.topCount = s.topCount ∧ ∀ j < s.topCount, s'.top.getD j none = s.top.getD j none

section
variable {s s' : State}

theorem SameEntries.topSlot_eq (h : SameEntries s s') (j : Nat) (hj : j < s.topCount) :
    s'.topSlot j = s.topSlot j := by
  rw [State.topSlot, State.topSlot, slotOr, slotOr, h.2 j hj]

theorem SameEntries.insertionIndex_eq (h : SameEntries s s') (v : Value) :
    insertionIndex s'.top v s'.topCount = insertionIndex s.top v s.topCount := by
  rw [h.1]
  exact scan_congr _ _ v _ _ _ h.2

/-- The entries after a CONSIDER come from the entries before it and `v` alone (R34, R78). -/
theorem SameEntries.considered (h : SameEntries s s') (v : Value) (hcfg : s'.cfg = s.cfg)
    (hlen : s.top.length = s.K) (hlen' : s'.top.length = s'.K) (hn : s.topCount ≤ s.K) :
    SameEntries (s.considered v) (s'.considered v) := by
  have hK : s'.K = s.K := congrArg Config.K hcfg
  have hidx := insertionIndex_bound s.top v s.topCount
  have hidx' := h.insertionIndex_eq v
  have ⟨hcount, hget⟩ := h
  by_cases hk : s.topCount < s.K
  · rw [s.considered_grow v hk, s'.considered_grow v (by omega), hidx']
    refine ⟨congrArg (· + 1) hcount, fun j (hj : j < s.topCount + 1) => ?_⟩
    rw [State.setTop_top, State.setTop_top, getD_growAt _ _ _ _ _ (by omega) (by omega),
      getD_growAt _ _ _ _ _ (by omega) hidx, hcount]
    split_ifs with h1 h2
    · rfl
    · exact hget (j - 1) (by omega)
    · exact hget j (by omega)
  · have hfull : s.topCount = s.K := by omega
    have hpos := s.K_pos
    have hmin := h.topSlot_eq 0 (by omega)
    by_cases hv : s.topSlot 0 < v
    · have hp := insertionIndex_pos s.top v s.topCount (by omega) hv
      rw [s.considered_replace v hfull hv, s'.considered_replace v (by omega) (by rwa [hmin]), hidx']
      refine ⟨hcount, fun j (hj : j < s.topCount) => ?_⟩
      rw [State.setTop_top, State.setTop_top, getD_replaceAt _ _ _ _ hp (by omega),
        getD_replaceAt _ _ _ _ hp (by omega)]
      split_ifs with h1 h2
      · rfl
      · exact hget (j + 1) (by omega)
      · exact hget j hj
    · rwa [s.considered_discard v hfull hv, s'.considered_discard v (by omega) (by rwa [hmin])]

end

/-- Settles O23. -/
theorem considerReadsOnlyEntries : Obligations.ConsiderReadsOnlyEntries := by
  unfold Obligations.ConsiderReadsOnlyEntries
  intro s s' v hlen hlen' hcfg hcount hn hget
  have hsame : SameEntries s s' := ⟨hcount, hget⟩
  obtain ⟨hcount', hget'⟩ := hsame.considered v hcfg hlen hlen' hn
  exact ⟨_, _, exec_consider v s, exec_consider v s', hcount', hget'⟩

/-! ### RECORD as a window over the latest values (R22 to R25, R92 to R97) -/

theorem lastInv_recorded (s : State) (v : Value) (h : LastInv s) : LastInv (s.recorded v) := by
  obtain ⟨hf, hc, hcn⟩ := h
  refine ⟨filledTo_recorded s v hf hc hcn, Nat.mod_lt _ s.K_pos, fun hk => ?_⟩
  simp only [State.recorded_lastCount, State.recorded_K, State.recorded_lastCursor] at hk ⊢
  rw [hcn (by omega), Nat.mod_eq_of_lt (by omega)]
  omega

/-- Until the array is full RECORD writes the first free slot and leaves the cursor where no index is moved by it. -/
theorem phys_recorded_of_not_full (s : State) (v : Value) (h : LastInv s) (hk : s.lastCount < s.K) (j : Nat)
    (hj : j ≤ s.lastCount) : (s.recorded v).phys j = j := by
  obtain ⟨-, hc, hcn⟩ := h
  obtain hlt | hfull := Nat.lt_or_eq_of_le (Nat.succ_le_of_lt hk)
  · exact phys_of_not_full _ j (by simp; omega)
  · have hzero : (s.lastCursor + 1) % s.K = 0 := by rw [hcn hk, ← hfull, Nat.mod_self]
    unfold State.phys
    rw [State.recorded_lastCursor, hzero, Nat.zero_add, State.recorded_K, Nat.mod_eq_of_lt (by omega), ite_self]

theorem phys_eq_mod_of_full (s : State) (i : Nat) (h : s.lastCount = s.K) :
    s.phys i = (s.lastCursor + i) % s.K := if_pos (decide_eq_true h)

/-- In a full array RECORD moves the cursor, and with it every logical index, one slot on (R95, R103). -/
theorem phys_recorded_of_full (s : State) (v : Value) (hk : s.lastCount = s.K) (j : Nat) :
    (s.recorded v).phys j = s.phys (j + 1) := by
  have hfull : (s.recorded v).lastCount = (s.recorded v).K := by simp [hk]
  rw [phys_eq_mod_of_full _ _ hfull, phys_eq_mod_of_full s _ hk, State.recorded_lastCursor, State.recorded_K,
    Nat.mod_add_mod, Nat.add_assoc, Nat.add_comm 1]

/-- RECORD appends `v` and, at capacity, drops the oldest of the K + 1 values (R95 to R97). -/
theorem lastValues_recorded (s : State) (v : Value) (h : LastInv s) :
    (s.recorded v).lastValues = (s.lastValues ++ [v]).drop (s.lastCount + 1 - s.K) := by
  have ⟨⟨hlen, hn, _⟩, hc, hcn⟩ := h
  refine List.ext_getElem (by simp; omega) fun j h1 h2 => ?_
  rw [lastValues_length, State.recorded_lastCount] at h1
  rw [lastValues_getElem, lastSlot_recorded s v hlen hc, List.getElem_drop, List.getElem_append]
  simp only [lastValues_length, lastValues_getElem, List.getElem_singleton]
  by_cases hk : s.lastCount < s.K
  · rw [phys_recorded_of_not_full s v h hk j (by omega), hcn hk, Nat.sub_eq_zero_of_le hk, Nat.zero_add]
    split_ifs with h3 h4
    · omega
    · rfl
    · rw [phys_of_not_full s j hk]
    · omega
  · have hK : s.lastCount = s.K := by omega
    have hone : s.lastCount + 1 - s.K = 1 := by omega
    rw [phys_recorded_of_full s v hK, hone, Nat.add_comm 1]
    by_cases hj : j + 1 < s.lastCount
    · have hne : s.phys (j + 1) ≠ s.lastCursor := by
        rw [phys_of_full s (j + 1) hK hc (by omega)]; split_ifs <;> omega
      rw [if_neg hne, dif_pos hj]
    · have heq : s.phys (j + 1) = s.lastCursor := by
        rw [phys_eq_mod_of_full s _ hK, show j + 1 = s.K by omega, Nat.add_mod_right, Nat.mod_eq_of_lt hc]
      rw [if_pos heq, dif_neg hj]

end Sys2Proof.Machine
end

section
/-!
The invariants and frames of the state family (spec/10_state.md): the reset values, the run invariant kept by every
step, what an operation leaves unchanged, and the widths of the status outputs.
-/

namespace Sys2Proof.Machine

open Sys2Proof Sys2Proof.Safety

/-! ### The cleared state (R32, R34, R110, R127) -/

theorem cleared_resetFor (c : Config) : Cleared (State.resetFor c) := ⟨rfl, rfl, rfl, rfl, rfl, rfl, rfl⟩

/-- Settles O35. -/
theorem clrIsReset : Obligations.ClrIsReset := by
  unfold Obligations.ClrIsReset
  exact fun s => ⟨_, exec_clr s, cleared_resetTransition s, rfl, rfl, ⟨rfl, rfl, rfl, rfl, rfl⟩, rfl, fun _ => rfl⟩

/-- Settles O40: the edge with `rst` = 1 is the reset case of a step. -/
theorem resetWinsOverCommand : Obligations.ResetWinsOverCommand := by
  unfold Obligations.ResetWinsOverCommand
  intro s e rest hbus hport hrst
  rw [← edge_of_port s e rest hport] at hrst
  have hready : s.cmdReady = false := by simp [State.cmdReady, hrst]
  have hwait : s.nextWaiting = none := by simp [State.nextWaiting, hrst]
  exact ⟨hready, by simp [State.accepts, hready], _, step_reset s hbus hrst, cleared_resetTransition s.clocked, rfl,
    congrArg List.tail hport, rfl, hwait⟩

theorem topInv_of_cleared (s : State) (h : Cleared s) : TopInv s := by
  obtain ⟨-, -, htc, -, -, htop, -⟩ := h
  refine ⟨?_, fun i hi => by omega⟩
  rw [htop, htc]; exact filledTo_replicate s.K

theorem lastInv_of_cleared (s : State) (h : Cleared s) : LastInv s := by
  obtain ⟨-, -, -, hlc, hcur, -, hlast⟩ := h
  refine ⟨?_, by rw [hcur]; exact s.K_pos, fun _ => by rw [hcur, hlc]⟩
  rw [hlast, hlc]; exact filledTo_replicate s.K

theorem runInv_of_cleared (s : State) (h : Cleared s) (hbus : s.vbus = 0) : RunInv s := by
  have ⟨hbits, hvalue, htc, hlc, _, _, _⟩ := h
  have hunpacker : UnpackerInv s := ⟨fun _ => hvalue, fun hfour => by rw [hbits] at hfour; cases hfour⟩
  exact ⟨hunpacker, topInv_of_cleared s h, lastInv_of_cleared s h, htc.trans hlc.symm, hbus⟩

/-- Settles O46. -/
theorem resetHoldsInv : Obligations.ResetHoldsInv := by
  unfold Obligations.ResetHoldsInv
  have hinv (c : Config) : RunInv (State.resetFor c) := runInv_of_cleared _ (cleared_resetFor c) rfl
  have hfull (c : Config) : decide (0 = c.K) = false := decide_eq_false (Nat.ne_of_lt (capacity_bounds c).1)
  exact ⟨fun c => ⟨hinv c, cleared_resetFor c, rfl, rfl, rfl, rfl, hfull c, hfull c, rfl⟩, rfl, hinv _⟩

/-! ### The run invariant (R14, R16, R19, R24 to R26, R41) -/

/-- A value completed by a FEED keeps the invariant: both counts rise alike, and the new unpacker registers fit. -/
theorem runInv_completed (s : State) (p : PendingBits) (q : Byte) (v : Value) (r : Option Value) (h : RunInv s)
    (hunpacker : UnpackerInv (s.setUnpacker p q)) :
    RunInv ((((s.setUnpacker p q).considered v).recorded v).setRsp r) := by
  obtain ⟨-, htop, hlast, hcounts, hbus⟩ := h
  have htop' : TopInv ((s.setUnpacker p q).considered v) := topInv_considered _ v htop
  have hlast' : LastInv (((s.setUnpacker p q).considered v).recorded v) := lastInv_recorded _ v hlast
  have hcounts' : ((s.setUnpacker p q).considered v).topCount = min (s.lastCount + 1) s.K :=
    hcounts ▸ considered_topCount (s.setUnpacker p q) v htop.1.2.1
  exact ⟨hunpacker, htop', hlast', hcounts', hbus⟩

theorem runInv_feed (b : Byte) (s t : State) (hs : RunInv s) (h : exec (.feed b) s = .next t) : RunInv t := by
  cases hbits : s.pendingBits with
  | zero =>
    rw [exec_feed_zero b s hbits] at h; cases h
    obtain ⟨-, hrest⟩ := hs
    exact ⟨⟨nofun, nofun⟩, hrest⟩
  | eight =>
    rw [exec_feed_eight b s hbits] at h; cases h
    have hnibble : ((lowNibble b).setWidth 8).toNat < 16 := by
      rw [keptNibble_toNat]; exact Nat.mod_lt _ (by decide)
    exact runInv_completed s _ _ _ _ hs ⟨nofun, fun _ => hnibble⟩
  | four =>
    rw [exec_feed_four b s hbits] at h; cases h
    exact runInv_completed s _ _ _ _ hs ⟨fun _ => rfl, nofun⟩

/-- Every command keeps the run invariant; a micro-operation alone would part the counts (R26). -/
theorem runInv_exec (i : Instr) (s t : State) (hp : i.presentable = true) (hs : RunInv s)
    (h : exec i s = .next t) : RunInv t := by
  cases i with
  | feed b => exact runInv_feed b s t hs h
  | nop | rdtop | rdlast => cases h; exact hs
  | clr =>
    cases h
    obtain ⟨-, -, -, -, hbus⟩ := hs
    exact runInv_of_cleared _ (cleared_resetTransition s) hbus
  | consider | record => cases hp

/-- The command port cannot bring a micro-operation (R64). -/
theorem presentable_of_decodeCmd (w : CmdWord) (i : Instr) (h : decodeCmd w = .ok i) : i.presentable = true := by
  unfold decodeCmd at h
  split_ifs at h <;> (cases h; rfl)

/-- Settles O47: in a run the bus is empty, so a step is a reset, one decoded command or a hold. -/
theorem stepKeepsInv : Obligations.StepKeepsInv := by
  unfold Obligations.StepKeepsInv
  intro s t hs hstep
  have ⟨_, _, _, _, hbus⟩ := hs
  obtain ⟨hvalid, -⟩ | ⟨-, -, rfl⟩ | ⟨-, -, -, -, i, hdec, hexec⟩ | ⟨-, -, -, -, rfl⟩ := step_cases s t hstep
  · rw [hbus] at hvalid; cases hvalid
  · exact runInv_of_cleared _ (cleared_resetTransition s.clocked) hbus
  · exact runInv_exec i s.clocked t (presentable_of_decodeCmd _ i hdec) hs hexec
  · exact hs

/-! ### Frames (R21, R31, R42, R72, R77, R92, R106) -/

/-- Settles O36. -/
theorem frameOfEveryOperation : Obligations.FrameOfEveryOperation := by
  unfold Obligations.FrameOfEveryOperation
  intro i s t h
  obtain ⟨hcfg, hports⟩ := exec_frame i s t h
  refine ⟨hcfg, hports, fun hread => ?_, ?_, ?_, ?_⟩
  · cases i with
    | nop | rdtop | rdlast => cases h; exact ⟨rfl, rfl, rfl, rfl, rfl, rfl, rfl, rfl⟩
    | feed | clr | consider | record => cases hread
  · rintro b rfl hbits
    rw [exec_feed_zero b s hbits] at h; cases h
    exact ⟨rfl, rfl, rfl, rfl, rfl⟩
  · rintro v rfl
    cases h; exact ⟨⟨rfl, rfl⟩, rfl, rfl, rfl, rfl⟩
  · rintro v rfl
    cases h; exact ⟨⟨rfl, rfl⟩, rfl, rfl, rfl⟩

/-- A FEED that completes no value leaves both trackers (R72). -/
theorem feed_trackers_or_rsp (b : Byte) (s t : State) (h : exec (.feed b) s = .next t) :
    SameTrackers s t ∨ ∃ v, t.rsp = some v := by
  obtain ⟨p, q, ⟨-, hf⟩ | ⟨-, v, hf⟩⟩ := exec_feed_cases s b
  all_goals rw [hf] at h; cases h
  · exact .inl ⟨rfl, rfl, rfl, rfl, rfl⟩
  · exact .inr ⟨v, rfl⟩

/-- Settles O37. -/
theorem onlyFeedAndClrChangeState : Obligations.OnlyFeedAndClrChangeState := by
  unfold Obligations.OnlyFeedAndClrChangeState
  intro i s t h
  cases i with
  | feed b =>
    refine ⟨fun _ => .inl ⟨b, rfl⟩, fun _ hne => ?_, fun _ => .inl ⟨b, rfl⟩⟩
    obtain ⟨v, hv⟩ := (feed_trackers_or_rsp b s t h).resolve_left hne
    exact .inl ⟨b, v, rfl, hv⟩
  | clr => exact ⟨fun _ => .inr rfl, fun _ _ => .inr rfl, fun _ => .inr (.inl rfl)⟩
  | nop | rdtop | rdlast =>
    cases h
    exact ⟨fun hne => absurd rfl hne, fun _ hne => absurd ⟨rfl, rfl, rfl, rfl, rfl⟩ hne, fun hne => absurd rfl hne⟩
  | consider v =>
    cases h
    exact ⟨fun hne => absurd rfl hne, nofun, fun hne => absurd rfl hne⟩
  | record v =>
    cases h
    exact ⟨fun hne => absurd rfl hne, nofun, fun _ => .inr (.inr ⟨v, rfl⟩)⟩

/-! ### Widths and status outputs (spec/00_scope.md section 5; R28, R29) -/

/-- `clog2 n` is the least exponent of a power of two that is not below `n`. -/
theorem clog2_spec (n : Nat) (hn : n ≤ 2 ^ 9) : n ≤ 2 ^ clog2 n ∧ ∀ b < clog2 n, 2 ^ b < n := by
  obtain ⟨m, hm⟩ : ∃ m, (List.range 10).find? (fun b => decide (n ≤ 2 ^ b)) = some m :=
    Option.isSome_iff_exists.mp (List.find?_isSome.mpr ⟨9, by decide, by simpa using hn⟩)
  have hclog : clog2 n = m := by rw [clog2, hm]; rfl
  obtain ⟨hle, -, hleast⟩ := List.find?_range_eq_some.mp hm
  rw [hclog]
  exact ⟨of_decide_eq_true hle, fun b hb => by simpa using hleast b hb⟩

theorem iw_spec (c : Config) : 1 ≤ c.iw ∧ c.K ≤ 2 ^ c.iw ∧ (c.iw = 1 ∨ 2 ^ (c.iw - 1) < c.K) := by
  obtain ⟨hle, hleast⟩ := clog2_spec c.K (by have := capacity_bounds c; omega)
  have hmax : c.iw = max 1 (clog2 c.K) := rfl
  refine ⟨by omega, hle.trans (Nat.pow_le_pow_right (by decide) (by omega)), ?_⟩
  by_cases hone : c.iw = 1
  · exact .inl hone
  · exact .inr (hleast _ (by omega))

theorem cw_spec (c : Config) : 1 ≤ c.cw ∧ c.K + 1 ≤ 2 ^ c.cw ∧ 2 ^ (c.cw - 1) < c.K + 1 := by
  have hK := capacity_bounds c
  obtain ⟨hle, hleast⟩ : c.K + 1 ≤ 2 ^ c.cw ∧ ∀ b < c.cw, 2 ^ b < c.K + 1 := clog2_spec (c.K + 1) (by omega)
  have hpos : 1 ≤ c.cw := Nat.pos_of_ne_zero fun h0 => by rw [h0] at hle; omega
  exact ⟨hpos, hle, hleast _ (by omega)⟩

theorem code_toNat (p : PendingBits) : p.code.toNat = p.bits / 4 ∧ p.code ≠ 0b11 := by
  cases p <;> decide

/-- Settles O6. -/
theorem statusOutputsShowState : Obligations.StatusOutputsShowState := by
  unfold Obligations.StatusOutputsShowState
  refine ⟨fun c => ?_, by decide, by decide, fun s hs => ?_⟩
  · obtain ⟨h1, h2, h3⟩ := iw_spec c
    exact ⟨h1, h2, h3, cw_spec c⟩
  · obtain ⟨-, ⟨⟨-, hT, -⟩, -⟩, ⟨⟨-, hL, -⟩, hcursor, -⟩, -, -⟩ := hs
    obtain ⟨hcode, hthree⟩ := code_toNat s.pendingBits
    obtain ⟨-, hiw, -⟩ := iw_spec s.cfg
    obtain ⟨-, hcw, -⟩ := cw_spec s.cfg
    have htop : s.topCount < 2 ^ s.cfg.cw := Nat.lt_of_le_of_lt hT hcw
    have hlast : s.lastCount < 2 ^ s.cfg.cw := Nat.lt_of_le_of_lt hL hcw
    exact ⟨hcode, hthree, (BitVec.toNat_ofNat _ _).trans (Nat.mod_eq_of_lt htop),
      (BitVec.toNat_ofNat _ _).trans (Nat.mod_eq_of_lt hlast), Nat.lt_of_lt_of_le hcursor hiw, htop⟩

end Sys2Proof.Machine
end

section
/-!
A whole stream (spec/70_reset_and_hazards.md rule R142): the FEEDs cut the stream's bit string every 12 bits, the bits
still pending in front, and the trackers hold the largest and the latest of the values cut so far.
-/

namespace Sys2Proof.Machine

open Sys2Proof Sys2Proof.Safety

/-! ### Bit strings as numbers (R36) -/

theorem bitsToNat_append (l m : List Bool) : bitsToNat (l ++ m) = bitsToNat l * 2 ^ m.length + bitsToNat m := by
  induction m using List.reverseRecOn with
  | nil => simp [bitsToNat]
  | append_singleton m b ih =>
    have hsnoc (k : List Bool) : bitsToNat (k ++ [b]) = 2 * bitsToNat k + b.toNat := by simp [bitsToNat]
    rw [← List.append_assoc, hsnoc, hsnoc, ih, List.length_append, List.length_singleton, Nat.pow_succ]
    ring

theorem bitsToNat_singleton (b : Bool) : bitsToNat [b] = b.toNat := by simp [bitsToNat]

theorem bitsToNat_lt (l : List Bool) : bitsToNat l < 2 ^ l.length := by
  induction l with
  | nil => decide
  | cons b l ih =>
    have hb := Nat.mul_le_mul_right (2 ^ l.length) b.toNat_le
    have hcons := bitsToNat_append [b] l
    rw [List.singleton_append, bitsToNat_singleton] at hcons
    rw [hcons, List.length_cons, Nat.pow_succ]
    omega

theorem bitsToNat_testBits (x w : Nat) :
    bitsToNat ((List.range w).map fun i => x.testBit (w - 1 - i)) = x % 2 ^ w := by
  induction w with
  | zero => simp [bitsToNat, Nat.mod_one]
  | succ w ih =>
    have htail : (List.range (w + 1)).map (fun i => x.testBit (w + 1 - 1 - i)) =
        [x.testBit w] ++ (List.range w).map fun i => x.testBit (w - 1 - i) := by
      rw [List.range_succ_eq_map, List.map_cons, List.map_map]
      simp [Function.comp_def, Nat.sub_sub, Nat.add_comm]
    rw [htail, bitsToNat_append, ih, bitsToNat_singleton, Nat.mod_pow_succ, Nat.toNat_testBit, List.length_map,
      List.length_range, Nat.mul_comm, Nat.add_comm]

/-- The eight bits a byte adds to the stream, bit 7 first (R36). -/
def byteBits (b : Byte) : List Bool := (List.range 8).map fun i => b.getLsbD (7 - i)

theorem streamBits_cons (b : Byte) (bs : List Byte) : streamBits (b :: bs) = byteBits b ++ streamBits bs := rfl

@[simp] theorem byteBits_length (b : Byte) : (byteBits b).length = 8 := rfl

theorem streamBits_length (bs : List Byte) : (streamBits bs).length = 8 * bs.length := by
  induction bs with
  | nil => rfl
  | cons b bs ih => rw [streamBits_cons, List.length_append, ih, byteBits_length, List.length_cons]; omega

theorem bitsToNat_byteBits (b : Byte) : bitsToNat (byteBits b) = b.toNat :=
  (bitsToNat_testBits b.toNat 8).trans (Nat.mod_eq_of_lt b.isLt)

/-- The two nibbles of a byte as bit strings. -/
theorem bitsToNat_nibbles (b : Byte) :
    bitsToNat ((byteBits b).take 4) = b.toNat / 16 ∧ bitsToNat ((byteBits b).drop 4) = b.toNat % 16 := by
  have hsplit := bitsToNat_append ((byteBits b).take 4) ((byteBits b).drop 4)
  have hlow := bitsToNat_lt ((byteBits b).drop 4)
  have hlen : ((byteBits b).drop 4).length = 4 := rfl
  rw [List.take_append_drop, bitsToNat_byteBits, hlen] at hsplit
  rw [hlen] at hlow
  omega

/-! ### Cutting a bit string every 12 bits (R36, R39, R74) -/

/-- The values of a bit string: cut every 12, an incomplete last group left out. -/
def cutValues (l : List Bool) : List Value :=
  (List.range (l.length / 12)).map fun k => BitVec.ofNat 12 (bitsToNat ((l.drop (12 * k)).take 12))

theorem streamValues_eq_cutValues (bs : List Byte) : streamValues bs = cutValues (streamBits bs) := by
  rw [streamValues, cutValues, streamBits_length]

theorem cutValues_of_short (l : List Bool) (h : l.length < 12) : cutValues l = [] := by
  rw [cutValues, Nat.div_eq_of_lt h]; rfl

theorem cutValues_append (g l : List Bool) (v : Value) (hg : g.length = 12) (hv : bitsToNat g = v.toNat) :
    cutValues (g ++ l) = v :: cutValues l := by
  have hgroups : (g ++ l).length / 12 = l.length / 12 + 1 := by rw [List.length_append]; omega
  have hdrop (k : Nat) : (g ++ l).drop (12 * (k + 1)) = l.drop (12 * k) := by
    rw [Nat.mul_succ, Nat.add_comm, ← hg, List.drop_length_add_append]
  have hfirst : ((g ++ l).drop (12 * 0)).take 12 = g := List.take_left' hg
  rw [cutValues, hgroups, List.range_succ_eq_map, List.map_cons, List.map_map, hfirst, hv, BitVec.ofNat_toNat,
    BitVec.setWidth_eq]
  simp only [Function.comp_def, Nat.succ_eq_add_one, hdrop]
  rfl

/-! ### One FEED on the bit string (R68 to R71) -/

/-- The bits of the stream that the unpacker still holds (R14 to R16). -/
def heldBits (s : State) : List Bool :=
  match s.pendingBits with
  | .zero => []
  | .eight => byteBits s.pendingValue
  | .four => (byteBits s.pendingValue).drop 4

theorem heldBits_length (s : State) : (heldBits s).length = s.pendingBits.bits := by
  unfold heldBits; cases s.pendingBits <;> rfl

theorem drop_byteBits_keptNibble (b : Byte) :
    (byteBits ((lowNibble b).setWidth 8)).drop 4 = (byteBits b).drop 4 := by
  simp [byteBits, List.range_succ, lowNibble]

/-- A FEED answers the value its byte completes, if any, and holds what is left of the bit string. -/
theorem cutValues_feed (b : Byte) (s t : State) (h : exec (.feed b) s = .next t) (l : List Bool) :
    cutValues (heldBits s ++ (byteBits b ++ l)) = t.rsp.toList ++ cutValues (heldBits t ++ l) := by
  obtain ⟨hhigh, -⟩ := bitsToNat_nibbles b
  obtain ⟨-, hlow⟩ := bitsToNat_nibbles s.pendingValue
  cases hbits : s.pendingBits with
  | zero =>
    rw [exec_feed_zero b s hbits] at h; cases h
    simp [heldBits, hbits]
  | eight =>
    rw [exec_feed_eight b s hbits] at h; cases h
    have hvalue : bitsToNat (byteBits s.pendingValue ++ (byteBits b).take 4) =
        (phaseBValue s.pendingValue b).toNat := by
      have hlen : ((byteBits b).take 4).length = 4 := rfl
      rw [bitsToNat_append, bitsToNat_byteBits, hhigh, phaseBValue_toNat, hlen]; omega
    have hcut := cutValues_append _ ((byteBits b).drop 4 ++ l) _ (by simp) hvalue
    rw [List.append_assoc, ← List.append_assoc (List.take 4 _), List.take_append_drop] at hcut
    simpa [heldBits, hbits, drop_byteBits_keptNibble] using hcut
  | four =>
    rw [exec_feed_four b s hbits] at h; cases h
    have hvalue : bitsToNat ((byteBits s.pendingValue).drop 4 ++ byteBits b) =
        (phaseCValue s.pendingValue b).toNat := by
      rw [bitsToNat_append, bitsToNat_byteBits, hlow, phaseCValue_toNat, byteBits_length]; omega
    have hcut := cutValues_append _ l _ (by simp) hvalue
    simpa [heldBits, hbits] using hcut

/-! ### The collections of a growing list of values (R20, R97) -/

/-- Inserting in order and dropping one more element, in either order. -/
theorem drop_orderedInsert (v : Value) (m : Nat) (l : List Value) (hl : l.Pairwise (· ≤ ·)) :
    (l.orderedInsert (· ≤ ·) v).drop (m + 1) = ((l.drop m).orderedInsert (· ≤ ·) v).drop 1 := by
  induction l generalizing m with
  | nil => simp
  | cons a l ih =>
    obtain ⟨ha, hl'⟩ := List.pairwise_cons.mp hl
    cases m with
    | zero => rfl
    | succ m =>
      by_cases hv : v ≤ a
      · have hdrop : ∀ x ∈ l.drop m, v ≤ x := fun x hx => BitVec.le_trans hv (ha x (List.mem_of_mem_drop hx))
        rw [List.orderedInsert_cons_of_le _ l hv, List.drop_succ_cons, List.drop_succ_cons]
        cases hrest : l.drop m with
        | nil => rfl
        | cons x xs => rw [List.orderedInsert_cons_of_le _ xs (hdrop x (by simp [hrest]))]; rfl
      · rw [List.orderedInsert_of_not_le _ l hv, List.drop_succ_cons, List.drop_succ_cons, ih m hl']

theorem insertionSort_append_singleton (vs : List Value) (v : Value) :
    (vs ++ [v]).insertionSort (· ≤ ·) = (vs.insertionSort (· ≤ ·)).orderedInsert (· ≤ ·) v := by
  have hperm : ((vs ++ [v]).insertionSort (· ≤ ·)).Perm ((vs.insertionSort (· ≤ ·)).orderedInsert (· ≤ ·) v) :=
    calc
      List.Perm _ (vs ++ [v]) := List.perm_insertionSort _ _
      List.Perm _ (v :: vs) := List.perm_append_singleton v vs
      List.Perm _ (v :: vs.insertionSort (· ≤ ·)) := (List.perm_insertionSort _ vs).symm.cons v
      List.Perm _ _ := (List.perm_orderedInsert _ v _).symm
  exact hperm.eq_of_pairwise (fun a b _ _ => BitVec.le_antisymm) (List.pairwise_insertionSort _ _)
    ((List.pairwise_insertionSort _ vs).orderedInsert v _)

theorem largest_append_singleton (k : Nat) (vs : List Value) (v : Value) :
    largest k (vs ++ [v]) =
      ((largest k vs).orderedInsert (· ≤ ·) v).drop ((largest k vs).length + 1 - k) := by
  have hlen : (largest k vs).length = vs.length - (vs.length - k) := by simp [largest]
  rw [hlen, largest, largest, insertionSort_append_singleton, List.length_append, List.length_singleton]
  by_cases hk : vs.length < k
  · rw [Nat.sub_eq_zero_of_le hk, show vs.length - k = 0 by omega, List.drop_zero, List.drop_zero,
      Nat.sub_zero, Nat.sub_eq_zero_of_le hk, List.drop_zero]
  · rw [show vs.length + 1 - k = vs.length - k + 1 by omega,
      drop_orderedInsert v _ _ (List.pairwise_insertionSort _ vs)]
    congr 1; omega

theorem latest_append_singleton (k : Nat) (vs : List Value) (v : Value) :
    latest k (vs ++ [v]) = (latest k vs ++ [v]).drop ((latest k vs).length + 1 - k) := by
  rw [latest, latest, ← List.drop_append_of_le_length (Nat.sub_le _ _), List.drop_drop, List.length_drop,
    List.length_append, List.length_singleton]
  congr 1; omega

/-- Both trackers are well formed and hold the K largest, ascending, and the K latest, in order, of `vs`. -/
def Collected (s : State) (vs : List Value) : Prop :=
  TopInv s ∧ LastInv s ∧ s.topValues = largest s.K vs ∧ s.lastValues = latest s.K vs

theorem collected_of_cleared (s : State) (h : Cleared s) : Collected s [] := by
  have ⟨_, _, htc, hlc, _, _, _⟩ := h
  exact ⟨topInv_of_cleared s h, lastInv_of_cleared s h, by simp [State.topValues, htc, largest],
    by simp [State.lastValues, hlc, latest]⟩

theorem Collected.tracked {s : State} {vs : List Value} (h : Collected s vs) (v : Value) :
    Collected ((s.considered v).recorded v) (vs ++ [v]) := by
  obtain ⟨htop, hlast, hlargest, hlatest⟩ := h
  have htopValues : (s.considered v).topValues = largest s.K (vs ++ [v]) := by
    rw [topValues_considered s v htop.1, largest_append_singleton, ← hlargest, topValues_length]
  have hlastValues : (s.recorded v).lastValues = latest s.K (vs ++ [v]) := by
    rw [lastValues_recorded s v hlast, latest_append_singleton, ← hlatest, lastValues_length]
  exact ⟨topInv_considered s v htop, lastInv_recorded (s.considered v) v hlast, htopValues, hlastValues⟩

/-- A FEED adds the value it answers, if any, to both collections (R72). -/
theorem Collected.feed {s t : State} {vs : List Value} (hs : Collected s vs) (b : Byte)
    (h : exec (.feed b) s = .next t) : Collected t (vs ++ t.rsp.toList) := by
  obtain ⟨p, q, ⟨-, hf⟩ | ⟨-, v, hf⟩⟩ := exec_feed_cases s b
  all_goals rw [hf] at h; cases h
  · rw [State.setRsp_rsp, Option.toList_none, List.append_nil]
    exact hs
  · exact Collected.tracked (s := s.setUnpacker p q) hs v

/-! ### A list of FEEDs -/

/-- Feeding `bs` answers the values cut from the held bits and the stream's, and collects them in both trackers. -/
theorem runResponses_feedAll (bs : List Byte) (s : State) : ∃ rs t,
    runResponses (feedAll bs) s = .next (rs, t) ∧ t.cfg = s.cfg ∧
      rs.filterMap id = cutValues (heldBits s ++ streamBits bs) ∧
      ∀ vs, Collected s vs → Collected t (vs ++ rs.filterMap id) := by
  induction bs generalizing s with
  | nil =>
    have hshort : (heldBits s ++ streamBits []).length < 12 := by
      rw [List.length_append, heldBits_length]; cases s.pendingBits <;> decide
    exact ⟨[], s, rfl, rfl, (cutValues_of_short _ hshort).symm, fun vs hs => by simpa using hs⟩
  | cons b bs ih =>
    obtain ⟨u, hu⟩ := exec_total (.feed b) s
    obtain ⟨rs, t, hrun, hcfg, hvalues, hcollected⟩ := ih u
    have hfilter : (u.rsp :: rs).filterMap id = u.rsp.toList ++ rs.filterMap id := by
      cases u.rsp <;> rfl
    refine ⟨u.rsp :: rs, t, ?_, hcfg.trans (exec_frame _ s u hu).1, ?_, fun vs hs => ?_⟩
    · have hrun' : runResponses (bs.map Instr.feed) u = .next (rs, t) := hrun
      simp only [feedAll, List.map_cons, runResponses, hu, hrun']
    · rw [hfilter, hvalues, streamBits_cons, cutValues_feed b s u hu]
    · rw [hfilter, ← List.append_assoc]
      exact hcollected _ (hs.feed b hu)

/-- Settles O50: a cleared core holds no bits and no values, so it collects exactly the stream's values. -/
theorem streamFillsBothCollections : Obligations.StreamFillsBothCollections := by
  unfold Obligations.StreamFillsBothCollections
  intro bs s hs
  obtain ⟨rs, t, hrun, hcfg, hvalues, hcollected⟩ := runResponses_feedAll bs s
  have hK : t.K = s.K := congrArg Config.K hcfg
  have hheld : heldBits s = [] := List.eq_nil_of_length_eq_zero (by rw [heldBits_length, hs.1]; rfl)
  have hstream : rs.filterMap id = streamValues bs := by
    rw [hvalues, hheld, List.nil_append, streamValues_eq_cutValues]
  obtain ⟨-, -, htop, hlast⟩ := hcollected [] (collected_of_cleared s hs)
  rw [List.nil_append, hstream, hK] at htop hlast
  refine ⟨rs, t, hrun, hK, htop, hlast, fun hn => ?_⟩
  rw [htop, hlast, largest, latest, Nat.sub_eq_zero_of_le hn, List.drop_zero, List.drop_zero]
  exact List.perm_insertionSort _ _

end Sys2Proof.Machine
end

section
/-!
The memory family (spec/20_memory.md): what a list of operations does as one run, so that CONSIDERs and RECORDs
commute (O28) and reads answer from the state they leave alone (O30, O32, O33), and on which FEEDs of a stream a value
is completed (O11, O49).
-/

namespace Sys2Proof.Machine

open Sys2Proof Sys2Proof.Safety

/-! ### Lists of operations -/

theorem execAll_append_next (is js : List Instr) (s t : State) (h : execAll is s = .next t) :
    execAll (is ++ js) s = execAll js t := by
  induction is generalizing s with
  | nil => cases h; rfl
  | cons i is ih =>
    obtain ⟨u, hu⟩ := exec_total i s
    rw [execAll_cons_next i is s u hu] at h
    rw [List.cons_append, execAll_cons_next i (is ++ js) s u hu, ih u h]

theorem execAll_total (is : List Instr) (s : State) : ∃ t, execAll is s = .next t := by
  induction is generalizing s with
  | nil => exact ⟨s, rfl⟩
  | cons i is ih =>
    obtain ⟨u, hu⟩ := exec_total i s
    rw [execAll_cons_next i is s u hu]
    exact ih u

theorem runResponses_cons (i : Instr) (is : List Instr) (s u t : State) (rs : List (Option Value))
    (hu : exec i s = .next u) (hrun : runResponses is u = .next (rs, t)) :
    runResponses (i :: is) s = .next (u.rsp :: rs, t) := by
  simp only [runResponses, hu, hrun]

/-- Collecting the responses does not change what the operations do. -/
theorem runResponses_total (is : List Instr) (s : State) : ∃ rs t,
    runResponses is s = .next (rs, t) ∧ execAll is s = .next t := by
  induction is generalizing s with
  | nil => exact ⟨[], s, rfl, rfl⟩
  | cons i is ih =>
    obtain ⟨u, hu⟩ := exec_total i s
    obtain ⟨rs, t, hrun, hexec⟩ := ih u
    exact ⟨u.rsp :: rs, t, runResponses_cons i is s u t rs hu hrun, (execAll_cons_next i is s u hu).trans hexec⟩

/-! ### CONSIDER and RECORD act on disjoint state (R47) -/

/-- A RECORD may be put off until after any CONSIDERs. -/
theorem execAll_considers_recorded (is : List Instr) (s t : State) (w : Value)
    (his : ∀ i ∈ is, isConsider i = true) (h : execAll is s = .next t) :
    execAll is (s.recorded w) = .next (t.recorded w) := by
  induction is generalizing s with
  | nil => cases h; rfl
  | cons i is ih =>
    obtain ⟨hi, hrest⟩ := List.forall_mem_cons.mp his
    cases i with
    | consider v => exact ih (s.considered v) hrest h
    | nop | feed | rdtop | rdlast | clr | record => cases hi

theorem execAll_considers_first (is : List Instr) (s : State) (his : ∀ i ∈ is, i.presentable = false) :
    execAll (is.filter isConsider ++ is.filter fun i => !isConsider i) s = execAll is s := by
  induction is generalizing s with
  | nil => rfl
  | cons i is ih =>
    obtain ⟨hi, hrest⟩ := List.forall_mem_cons.mp his
    cases i with
    | consider v => exact ih (s.considered v) hrest
    | record w =>
      obtain ⟨t, ht⟩ := execAll_total (is.filter isConsider) s
      have hput := execAll_considers_recorded _ s t w (fun i hi => (List.mem_filter.mp hi).2) ht
      calc execAll (is.filter isConsider ++ .record w :: is.filter fun i => !isConsider i) s
          = execAll (is.filter fun i => !isConsider i) (t.recorded w) := execAll_append_next _ _ s t ht
        _ = execAll (is.filter isConsider ++ is.filter fun i => !isConsider i) (s.recorded w) :=
          (execAll_append_next _ _ _ _ hput).symm
        _ = execAll is (s.recorded w) := ih (s.recorded w) hrest
    | nop | feed | rdtop | rdlast | clr => cases hi

/-- Settles O28. -/
theorem considerRecordOrderUnobservable : Obligations.ConsiderRecordOrderUnobservable := by
  unfold Obligations.ConsiderRecordOrderUnobservable
  intro is s his
  obtain ⟨t, ht⟩ := execAll_total is s
  exact ⟨t, ht, (execAll_considers_first is s his).trans ht⟩

/-! ### Reads (R42, R103 to R106) -/

/-- A NOP or read leaves everything but its response. -/
theorem exec_readOnly (i : Instr) (s : State) (hi : readOnly i = true) :
    exec i s = .next (s.setRsp (s.responseOf i)) := by
  cases i with
  | nop | rdtop | rdlast => rfl
  | feed | clr | consider | record => cases hi

/-- No response depends on an earlier one (R63). -/
theorem responseOf_setRsp (s : State) (r : Option Value) : (s.setRsp r).responseOf = s.responseOf := by
  funext i; cases i <;> rfl

/-- Reads all answer from the state before the first of them. -/
theorem runResponses_readOnly (is : List Instr) (s : State) (his : ∀ i ∈ is, readOnly i = true) :
    ∃ r, runResponses is s = .next (is.map s.responseOf, s.setRsp r) := by
  induction is generalizing s with
  | nil => exact ⟨s.rsp, rfl⟩
  | cons i is ih =>
    obtain ⟨hi, hrest⟩ := List.forall_mem_cons.mp his
    obtain ⟨r, hrun⟩ := ih (s.setRsp (s.responseOf i)) hrest
    rw [responseOf_setRsp] at hrun
    exact ⟨r, runResponses_cons i is s _ _ _ (exec_readOnly i s hi) hrun⟩

theorem execAll_readOnly (is : List Instr) (s : State) (his : ∀ i ∈ is, readOnly i = true) :
    ∃ r, execAll is s = .next (s.setRsp r) := by
  obtain ⟨r, hread⟩ := runResponses_readOnly is s his
  obtain ⟨rs, t, hrun, hexec⟩ := runResponses_total is s
  rw [hread] at hrun; cases hrun
  exact ⟨r, hexec⟩

/-- Settles O33. -/
theorem readsArePure : Obligations.ReadsArePure := by
  unfold Obligations.ReadsArePure
  intro is s i his hi
  obtain ⟨r, hr⟩ := execAll_readOnly is s his
  refine ⟨r, s.responseOf i, hr, exec_readOnly i s hi, ?_⟩
  rw [execAll_append_next is [i] s _ hr, execAll_singleton, exec_readOnly i _ hi, responseOf_setRsp]
  rfl

theorem readLast_of_lt (s : State) (i : Nat) (hi : i < s.lastCount) :
    s.readLast i = some (s.lastSlot (s.phys i)) := if_pos hi

theorem readLast_of_le (s : State) (i : Nat) (hi : s.lastCount ≤ i) : s.readLast i = none :=
  if_neg (Nat.not_lt_of_le hi)

/-- Settles O30. -/
theorem rdlastAnswersEntry : Obligations.RdlastAnswersEntry := by
  unfold Obligations.RdlastAnswersEntry
  intro s i ⟨hform, hcursor, _⟩
  refine ⟨fun hi hk => ⟨s.lastSlot i.toNat, last_getD s hform _ hi, ?_⟩, fun hi hk => ?_, fun hi => ?_⟩
  · rw [exec_rdlast, readLast_of_lt s _ hi, phys_of_not_full s _ hk]; rfl
  · have hslot : s.phys i.toNat < s.lastCount := by
      rw [phys_eq_mod_of_full s _ hk, hk]; exact Nat.mod_lt _ s.K_pos
    rw [← phys_of_full s i.toNat hk hcursor (by omega)]
    refine ⟨_, last_getD s hform _ hslot, ?_⟩
    rw [exec_rdlast, readLast_of_lt s _ hi]; rfl
  · rw [exec_rdlast, readLast_of_le s _ hi]; rfl

/-- `st_last_count` shows the count without loss (R28). -/
theorem stLastCount_toNat (s : State) (h : s.lastCount ≤ s.K) : s.stLastCount.toNat = s.lastCount := by
  obtain ⟨-, hcw, -⟩ := cw_spec s.cfg
  exact (BitVec.toNat_ofNat _ _).trans (Nat.mod_eq_of_lt (Nat.lt_of_le_of_lt h hcw))

theorem responseOf_dumpLast (s : State) (h : s.lastCount ≤ s.K) :
    s.dumpLast.map s.responseOf = s.lastValues.map some := by
  rw [State.dumpLast, State.lastValues, stLastCount_toNat s h, List.map_map, List.map_map]
  refine List.map_congr_left fun i hi => ?_
  have hlt := List.mem_range.mp hi
  have hindex : (BitVec.ofNat 8 i).toNat = i := Nat.mod_eq_of_lt (by have := s.K_le; omega)
  calc s.readLast (BitVec.ofNat 8 i).toNat
      = s.readLast i := by rw [hindex]
    _ = some (s.lastSlot (s.phys i)) := readLast_of_lt s i hlt

theorem readOnly_of_mem_dumpLast (s : State) : ∀ i ∈ s.dumpLast, readOnly i = true :=
  List.forall_mem_map.mpr fun _ _ => rfl

/-- Settles O32. -/
theorem dumpLastListsCollection : Obligations.DumpLastListsCollection := by
  unfold Obligations.DumpLastListsCollection
  intro s ⟨⟨_, hn, _⟩, _, _⟩
  obtain ⟨r, hrun⟩ := runResponses_readOnly s.dumpLast s (readOnly_of_mem_dumpLast s)
  rw [responseOf_dumpLast s hn] at hrun
  exact ⟨s.setRsp r, hrun, ⟨rfl, rfl, rfl, rfl, rfl, rfl, rfl, rfl⟩, lastValues_length s⟩

/-! ### On which FEEDs of a stream a value is completed (R36, R68, R74) -/

/-- A FEED adds 8 pending bits and takes 12 away for a value, which it completes unless no bits were pending. -/
theorem feed_pendingBits (b : Byte) (s t : State) (h : exec (.feed b) s = .next t) :
    t.pendingBits.bits = (s.pendingBits.bits + 8) % 12 ∧
      (t.rsp.isSome = true ↔ s.pendingBits.bits ≠ 0) := by
  cases hbits : s.pendingBits with
  | zero => rw [exec_feed_zero b s hbits] at h; cases h; exact ⟨rfl, nofun, fun hne => absurd rfl hne⟩
  | eight => rw [exec_feed_eight b s hbits] at h; cases h; exact ⟨rfl, fun _ => nofun, fun _ => rfl⟩
  | four => rw [exec_feed_four b s hbits] at h; cases h; exact ⟨rfl, fun _ => nofun, fun _ => rfl⟩

theorem runResponses_feedAll_phases (bs : List Byte) (s : State) : ∃ rs t,
    runResponses (feedAll bs) s = .next (rs, t) ∧ rs.length = bs.length ∧
      (∀ k < rs.length, ((rs.getD k none).isSome = true ↔ (s.pendingBits.bits + 8 * k) % 12 ≠ 0)) ∧
      t.pendingBits.bits = (s.pendingBits.bits + 8 * bs.length) % 12 := by
  have hmod (p : PendingBits) : p.bits % 12 = p.bits := by cases p <;> rfl
  induction bs generalizing s with
  | nil => exact ⟨[], s, rfl, rfl, nofun, (hmod s.pendingBits).symm⟩
  | cons b bs ih =>
    obtain ⟨u, hu⟩ := exec_total (.feed b) s
    obtain ⟨hbits, hsome⟩ := feed_pendingBits b s u hu
    obtain ⟨rs, t, hrun, hlen, hrs, ht⟩ := ih u
    refine ⟨u.rsp :: rs, t, runResponses_cons _ _ s u t rs hu hrun, congrArg Nat.succ hlen, fun k hk => ?_, ?_⟩
    · cases k with
      | zero => rw [List.getD_cons_zero, hsome, Nat.mul_zero, Nat.add_zero, hmod]
      | succ k =>
        rw [List.getD_cons_succ, hrs k (Nat.lt_of_succ_lt_succ hk), hbits]
        omega
    · rw [ht, hbits, List.length_cons]
      omega

/-- Settles O49: the values are those of `runResponses_feedAll`, and `runResponses_feedAll_phases` places them. -/
theorem streamIsCutEveryTwelveBits : Obligations.StreamIsCutEveryTwelveBits := by
  unfold Obligations.StreamIsCutEveryTwelveBits
  intro bs s hs
  obtain ⟨rs, t, hrun, -, hvalues, -⟩ := runResponses_feedAll bs s
  obtain ⟨rs', t', hrun', hlen, hplaces, ht⟩ := runResponses_feedAll_phases bs s
  rw [hrun] at hrun'; cases hrun'
  have hzero : s.pendingBits.bits = 0 := by rw [hs]; rfl
  have hheld : heldBits s = [] := List.eq_nil_of_length_eq_zero ((heldBits_length s).trans hzero)
  have hstream : rs.filterMap id = streamValues bs := by
    rw [hvalues, hheld, List.nil_append, streamValues_eq_cutValues]
  have hcount : (streamValues bs).length = 8 * bs.length / 12 := by
    rw [streamValues, List.length_map, List.length_range]
  rw [hzero] at hplaces ht
  refine ⟨rs, t, hrun, hlen, hstream, by rw [hstream, hcount]; omega, fun k hk => ?_, by rw [ht, Nat.zero_add]⟩
  rw [hplaces k hk]; omega

/-- Settles O11: the three phases in turn, from the bytes alone. -/
theorem threeFeedsEmitTwoValues : Obligations.ThreeFeedsEmitTwoValues := by
  unfold Obligations.ThreeFeedsEmitTwoValues
  intro s b0 b1 b2 hs
  have hA := exec_feed_zero b0 s hs
  have hB := exec_feed_eight b1 ((s.setUnpacker .eight b0).setRsp none) rfl
  have hrun := runResponses_cons _ _ s _ _ _ hA (runResponses_cons _ _ _ _ _ _ hB
    (runResponses_cons _ [] _ _ _ [] (exec_feed_four b2 _ rfl) rfl))
  have hsecond : (phaseCValue ((lowNibble b1).setWidth 8) b2).toNat = 256 * (b1.toNat % 16) + b2.toNat := by
    rw [phaseCValue_toNat, keptNibble_toNat, Nat.mod_mod]
  exact ⟨_, _, _, hrun, phaseBValue_toNat b0 b1, hsecond, rfl, rfl⟩

end Sys2Proof.Machine
end

section
/-!
The encoding family (spec/30_encoding.md): decoder and encoder are inverse to each other but for the ignored argument
of NOP and CLR (O1 to O4), and what a step does with the word it finds: a bus word goes to both trackers (O39), a
command is refused (O42), answered in its cycle (O43) or taken after the core's delay (O45). Also the two
pseudo-operations of a script, PUSH2 (O12) and DUMPTOP (O31).
-/

namespace Sys2Proof.Machine

open Sys2Proof Sys2Proof.Safety

/-! ### The command decoder (R53, R57, R58, R60) -/

/-- Settles O1. -/
theorem specExampleWordsDecode : Obligations.SpecExampleWordsDecode := by
  unfold Obligations.SpecExampleWordsDecode
  decide

/-- A CMD word is read through its two numbers, opcode and argument. -/
theorem decodeCmd_eq_fields (w : CmdWord) :
    decodeCmd w = decodeCmd (cmdWord (BitVec.ofNat 3 (w.toNat / 256)) (BitVec.ofNat 8 w.toNat)) := by
  rw [← opField_eq_ofNat, ← argField_eq_ofNat, cmdWord_opField_argField]

theorem decodeCmd_of_opcode_lt (w : CmdWord) (h : w.toNat / 256 < 5) : ∃ i, decodeCmd w = .ok i := by
  rw [decodeCmd_eq_fields, decodeCmd_cmdWord]
  interval_cases w.toNat / 256 <;> exact ⟨_, rfl⟩

theorem decodeCmd_of_opcode_ge (w : CmdWord) (h : 5 ≤ w.toNat / 256) :
    decodeCmd w = .error (.reservedOpcode (BitVec.ofNat 3 (w.toNat / 256))) := by
  have hlt : w.toNat / 256 < 8 := by have := w.isLt; omega
  rw [decodeCmd_eq_fields, decodeCmd_cmdWord]
  interval_cases w.toNat / 256 <;> rfl

/-- Settles O4: a command is its opcode and argument, and only NOP and CLR drop the argument. -/
theorem encodeDecodeCanonical : Obligations.EncodeDecodeCanonical := by
  unfold Obligations.EncodeDecodeCanonical
  intro w i hdec
  refine ⟨presentable_of_decodeCmd w i hdec, ?_⟩
  obtain ⟨op, arg, rfl⟩ : ∃ op arg, w = cmdWord op arg := ⟨_, _, (cmdWord_opField_argField w).symm⟩
  have hdrop : (cmdWord op 0).toNat = (cmdWord op arg).toNat / 256 * 256 := by
    have harg := arg.isLt
    have hzero : (0 : BitVec 8).toNat = 0 := rfl
    rw [cmdWord_toNat, cmdWord_toNat, hzero]
    omega
  rw [decodeCmd_cmdWord] at hdec
  split_ifs at hdec with hnop hfeed hrdtop hrdlast hclr
  all_goals cases hdec; subst op
  · exact .inr ⟨.inl rfl, _, rfl, hdrop⟩
  · exact .inl rfl
  · exact .inl rfl
  · exact .inl rfl
  · exact .inr ⟨.inr rfl, _, rfl, hdrop⟩

/-! ### The table decoder (R53, R54, R58) -/

theorem decodeVbus_some (v : Value) : decodeVbus (vbusOf (some v)) = [.consider v, .record v] := by
  rw [decodeVbus, vbusValid_some, vbusValue_some, if_pos rfl]

theorem decodeTableWord_cmd (w : CmdWord) (i : Instr) (h : decodeCmd w = .ok i) :
    decodeTableWord 16 w.toNat = some i := by
  have hw := w.isLt
  have hmod : w.toNat % 2 ^ 16 = w.toNat := Nat.mod_eq_of_lt (by omega)
  simp only [decodeTableWord, hmod, isCmdNumber, decide_eq_true hw, if_true, BitVec.ofNat_toNat,
    BitVec.setWidth_eq, h]

theorem decodeTableWord_vbus (v : Value) : decodeTableWord 16 (vbusOf (some v)).toNat = some (.consider v) := by
  have hw := (vbusOf (some v)).isLt
  have hge : 2 ^ 12 ≤ (vbusOf (some v)).toNat := by rw [vbusOf_toNat]; omega
  have hmod : (vbusOf (some v)).toNat % 2 ^ 16 = (vbusOf (some v)).toNat := Nat.mod_eq_of_lt (by omega)
  have hcmd : ¬ (vbusOf (some v)).toNat < 2 ^ 11 := by omega
  simp only [decodeTableWord, hmod, isCmdNumber, isVbusNumber, decide_eq_false hcmd, decide_eq_true hge,
    decide_eq_true hw, Bool.and_self, if_true, BitVec.ofNat_toNat, BitVec.setWidth_eq, decodeVbus_some]
  rfl

theorem decodeTableWord_of_neither (nbits n : Nat) (hcmd : 2 ^ 11 ≤ n % 2 ^ nbits)
    (hvbus : n % 2 ^ nbits < 2 ^ 12 ∨ 2 ^ 13 ≤ n % 2 ^ nbits) : decodeTableWord nbits n = none := by
  have hc : isCmdNumber (n % 2 ^ nbits) = false := decide_eq_false (Nat.not_lt.mpr hcmd)
  have hv : isVbusNumber (n % 2 ^ nbits) = false := by
    rw [isVbusNumber, ← Bool.decide_and]; exact decide_eq_false (by omega)
  simp only [decodeTableWord, hc, hv]
  rfl

/-- Settles O2. -/
theorem decoderIsTotalByOpcode : Obligations.DecoderIsTotalByOpcode := by
  unfold Obligations.DecoderIsTotalByOpcode
  refine ⟨fun nbits n h => decodeTableWord_of_neither nbits n (by omega) (by omega), fun w => ?_⟩
  refine ⟨fun h => ?_, fun h => ?_, fun h => ?_, fun h => ?_, fun h => ?_, decodeCmd_of_opcode_ge w⟩
  all_goals rw [decodeCmd_eq_fields, decodeCmd_cmdWord, h]; rfl

theorem encode_of_encodeCmd (i : Instr) (w : CmdWord) (h : encodeCmd i = some w) : encode i = .cmd w := by
  unfold encodeCmd at h
  split at h
  · rename_i w' he; cases h; exact he
  · cases h

theorem encodeNat_of_encode_cmd (i : Instr) (w : CmdWord) (h : encode i = .cmd w) : encodeNat i = w.toNat := by
  simp only [encodeNat, h]

/-- A command's word is read back by both decoders. -/
theorem decode_encode_command (i : Instr) (hp : i.presentable = true) :
    ∃ w, encode i = .cmd w ∧ decodeCmd w = .ok i ∧ decodeTableWord 16 (encodeNat i) = some i := by
  obtain ⟨w, henc, hdec⟩ := decodeCmd_encodeCmd i hp
  have hw := encode_of_encodeCmd i w henc
  refine ⟨w, hw, hdec, ?_⟩
  rw [encodeNat_of_encode_cmd i w hw]
  exact decodeTableWord_cmd w i hdec

/-- A micro-operation's word causes both micro-operations of its value. -/
theorem decode_encode_micro (i : Instr) (hp : i.presentable = false) :
    ∃ w v, encode i = .vbus w ∧ decodeVbus w = [.consider v, .record v] ∧ i ∈ decodeVbus w ∧
      decodeTableWord 16 (encodeNat i) = some (.consider v) := by
  cases i with
  | consider v | record v =>
    exact ⟨vbusOf (some v), v, rfl, decodeVbus_some v, by simp [decodeVbus_some], decodeTableWord_vbus v⟩
  | nop | feed | rdtop | rdlast | clr => cases hp

/-- Settles O3. -/
theorem decodeEncodeAgree : Obligations.DecodeEncodeAgree := by
  unfold Obligations.DecodeEncodeAgree
  refine ⟨⟨rfl, rfl, fun b => ⟨?_, ?_, ?_⟩, fun v => ⟨?_, ?_⟩⟩,
    fun i => ⟨decode_encode_command i, decode_encode_micro i⟩⟩
  · exact cmdWord_toNat 0b001 b
  · exact cmdWord_toNat 0b010 b
  · exact cmdWord_toNat 0b011 b
  · exact vbusOf_toNat v
  · exact vbusOf_toNat v

/-! ### Values on their way to the trackers (R54, R65, R72) -/

/-- Settles O39. -/
theorem stepRunsBusWord : Obligations.StepRunsBusWord := by
  unfold Obligations.StepRunsBusWord
  intro s v hbus
  have hfetch : s.fetch = .run [.consider v, .record v] ((s.setBus 0).setRsp none) := by
    rw [State.fetch, hbus, vbusValid_some, decodeVbus_some, if_pos rfl]
  rw [step, hfetch]
  rfl

/-- Settles O13: Phase A answers none, and the other phases hand on the value they answer. -/
theorem feedHandsValueToTrackers : Obligations.FeedHandsValueToTrackers := by
  unfold Obligations.FeedHandsValueToTrackers
  intro s t b h
  obtain ⟨p, q, ⟨-, hf⟩ | ⟨-, v, hf⟩⟩ := exec_feed_cases s b
  all_goals rw [hf] at h; cases h
  · exact ⟨nofun, fun _ => ⟨rfl, rfl, rfl, rfl, rfl⟩⟩
  · refine ⟨fun v' hv => ?_, nofun⟩
    obtain rfl : v = v' := Option.some.inj hv
    exact ⟨(s.considered v).recorded v, rfl, rfl, rfl, rfl, rfl, rfl⟩

/-- The three bytes of a PUSH2 as numbers: the two values' bits in order (R36, R65). -/
theorem push2Bytes_toNat (v w : Value) :
    (push2Bytes v w).map BitVec.toNat = [v.toNat / 16, 16 * (v.toNat % 16) + w.toNat / 256, w.toNat % 256] := by
  have hv := v.isLt
  have hw := w.isLt
  have hmid : (v.extractLsb' 0 4 ++ w.extractLsb' 8 4).toNat = 16 * (v.toNat % 16) + w.toNat / 256 := by
    rw [BitVec.toNat_append, Nat.shiftLeft_eq, Nat.mul_comm, ← Nat.two_pow_add_eq_or_of_lt (BitVec.isLt _)]
    simp [Nat.shiftRight_eq_div_pow]; omega
  simp [push2Bytes, hmid, Nat.shiftRight_eq_div_pow]
  omega

/-- Settles O12: three FEEDs from `pending_bits` = 0 emit the two values their bytes join to (R36). -/
theorem push2EmitsItsPair : Obligations.Push2EmitsItsPair := by
  unfold Obligations.Push2EmitsItsPair
  intro s v w
  refine ⟨fun hne => if_neg hne, fun hzero => ?_⟩
  obtain ⟨v', w', t, hrun, hv', hw', ht, -⟩ := threeFeedsEmitTwoValues s (v.extractLsb' 4 8)
    (v.extractLsb' 0 4 ++ w.extractLsb' 8 4) (w.extractLsb' 0 8) hzero
  have hbytes := push2Bytes_toNat v w
  simp only [push2Bytes, List.map_cons, List.map_nil, List.cons.injEq, and_true] at hbytes
  obtain ⟨h0, h1, h2⟩ := hbytes
  have hw := w.isLt
  obtain rfl : v' = v := BitVec.eq_of_toNat_eq (by omega)
  obtain rfl : w' = w := BitVec.eq_of_toNat_eq (by omega)
  exact ⟨_, t, if_pos hzero, hrun, ht⟩

/-! ### DUMPTOP (R65, R100, R102) -/

/-- `st_top_count` shows the count without loss (R28). -/
theorem stTopCount_toNat (s : State) (h : s.topCount ≤ s.K) : s.stTopCount.toNat = s.topCount := by
  obtain ⟨-, hcw, -⟩ := cw_spec s.cfg
  exact (BitVec.toNat_ofNat _ _).trans (Nat.mod_eq_of_lt (Nat.lt_of_le_of_lt h hcw))

theorem readTop_of_lt (s : State) (i : Nat) (hi : i < s.topCount) : s.readTop i = some (s.topSlot i) := if_pos hi

theorem responseOf_dumpTop (s : State) (h : s.topCount ≤ s.K) :
    s.dumpTop.map s.responseOf = s.topValues.map some := by
  rw [State.dumpTop, State.topValues, stTopCount_toNat s h, List.map_map, List.map_map]
  refine List.map_congr_left fun i hi => ?_
  have hlt := List.mem_range.mp hi
  have hindex : (BitVec.ofNat 8 i).toNat = i := Nat.mod_eq_of_lt (by have := s.K_le; omega)
  calc s.readTop (BitVec.ofNat 8 i).toNat
      = s.readTop i := by rw [hindex]
    _ = some (s.topSlot i) := readTop_of_lt s i hlt

theorem readOnly_of_mem_dumpTop (s : State) : ∀ i ∈ s.dumpTop, readOnly i = true :=
  List.forall_mem_map.mpr fun _ _ => rfl

/-- Settles O31. -/
theorem dumpTopListsCollection : Obligations.DumpTopListsCollection := by
  unfold Obligations.DumpTopListsCollection
  intro s ⟨⟨_, hn, _⟩, hsorted⟩
  obtain ⟨r, hrun⟩ := runResponses_readOnly s.dumpTop s (readOnly_of_mem_dumpTop s)
  rw [responseOf_dumpTop s hn] at hrun
  exact ⟨s.setRsp r, hrun, ⟨rfl, rfl, rfl, rfl, rfl, rfl, rfl, rfl⟩, topValues_length s,
    (sorted_iff_pairwise s).mp hsorted⟩

/-! ### Acceptance and refusal (R52, R59, R114, R138; V4, V12) -/

theorem cmdReady_of_busy (s : State) (h : s.busy ≠ 0) : s.cmdReady = false := by simp [State.cmdReady, h]

theorem accepts_of_not_cmdValid (s : State) (h : s.edge.cmdValid = false) : s.accepts = false := by
  simp [State.accepts, h]

theorem accepts_of_not_cmdReady (s : State) (h : s.cmdReady = false) : s.accepts = false := by
  simp [State.accepts, h]

/-- V12: the host breaks the handshake when it changes the command that waits. -/
theorem step_changed (s : State) (hbus : vbusValid s.vbus = false) (hrst : s.edge.rst = false)
    (hvalid : s.edge.cmdValid = true) (w : CmdWord) (hwait : s.waiting = some w) (hne : w ≠ s.edge.cmd) :
    step s = .refused .cmdChangedWhileWaiting := by
  have hbreaks : s.breaksHandshake = true := by simp [State.breaksHandshake, hrst, hvalid, hwait, hne]
  rw [step_of_bus_empty s hbus]
  simp [State.fetchEdge, hrst, hbreaks]

/-- V4: an accepted word with a reserved opcode has no meaning. -/
theorem step_reserved (s : State) (hbus : vbusValid s.vbus = false) (hrst : s.edge.rst = false)
    (hkeeps : s.breaksHandshake = false) (hacc : s.accepts = true) (op : BitVec 3)
    (hdec : decodeCmd s.edge.cmd = .error (.reservedOpcode op)) : step s = .refused (.reservedOpcode op) := by
  rw [step_of_bus_empty s hbus]
  simp [State.fetchEdge, hrst, hkeeps, hacc, hdec]

/-- A step that keeps the handshake has a meaning unless it accepts a word that decodes to no command. -/
theorem step_total (s : State) (hbus : vbusValid s.vbus = false) (hrst : s.edge.rst = false)
    (hkeeps : s.breaksHandshake = false) (hdec : s.accepts = true → ∃ i, decodeCmd s.edge.cmd = .ok i) :
    ∃ t, step s = .next t := by
  cases hacc : s.accepts with
  | false => exact ⟨_, step_hold s hbus hrst hkeeps hacc⟩
  | true =>
    obtain ⟨i, hi⟩ := hdec hacc
    rw [step_accept s hbus hrst hkeeps hacc i hi]
    exact exec_total i s.clocked

/-- Settles O42. -/
theorem whatAStepRefuses : Obligations.WhatAStepRefuses := by
  unfold Obligations.WhatAStepRefuses
  refine ⟨exec_total, fun s hbus hrst => ⟨?_, ?_, ?_⟩⟩
  · rintro hvalid ⟨w, hwait, hne⟩
    exact step_changed s hbus hrst hvalid w hwait hne
  · intro hwait hvalid hbusy hop
    have hacc : s.accepts = true := by simp [State.accepts, hvalid, cmdReady_of_idle s hrst hbusy]
    exact step_reserved s hbus hrst (breaksHandshake_eq_false s (.inr hwait)) hacc _
      (decodeCmd_of_opcode_ge _ hop)
  · intro hkeeps hmeaning
    refine step_total s hbus hrst (breaksHandshake_eq_false s hkeeps) fun hacc => ?_
    obtain hvalid | hbusy | hop := hmeaning
    · rw [accepts_of_not_cmdValid s hvalid] at hacc; cases hacc
    · rw [accepts_of_not_cmdReady s (cmdReady_of_busy s hbusy)] at hacc; cases hacc
    · exact decodeCmd_of_opcode_lt _ hop

/-! ### The response port (R52, R62, R63) -/

theorem rspNow_of_not_accepts (s : State) (h : s.accepts = false) : s.rspNow = none := by simp [State.rspNow, h]

theorem rspNow_of_accepts (s : State) (i : Instr) (h : s.accepts = true) (hdec : decodeCmd s.edge.cmd = .ok i) :
    s.rspNow = s.responseOf i := by
  simp [State.rspNow, h, hdec]

/-- A clock edge leaves the response that the ports showed before it. -/
theorem step_rsp (s t : State) (hbus : vbusValid s.vbus = false) (h : step s = .next t) : t.rsp = s.rspNow := by
  obtain ⟨hvalid, -⟩ | ⟨-, hrst, rfl⟩ | ⟨-, -, -, hacc, i, hdec, hexec⟩ | ⟨-, -, -, hacc, rfl⟩ :=
    step_cases s t h
  · rw [hbus] at hvalid; cases hvalid
  · have hready : s.cmdReady = false := by simp [State.cmdReady, hrst]
    rw [rspNow_of_not_accepts s (accepts_of_not_cmdReady s hready)]; rfl
  · rw [rspNow_of_accepts s i hacc hdec, exec_rsp i _ t (presentable_of_decodeCmd _ i hdec) hexec,
      responseOf_clocked]
  · rw [rspNow_of_not_accepts s hacc]; rfl

/-- Settles O43: both response outputs are read off the response of `step_rsp`. -/
theorem responseIsShownInItsCycle : Obligations.ResponseIsShownInItsCycle := by
  unfold Obligations.ResponseIsShownInItsCycle
  intro s t hbus h
  have hrsp := step_rsp s t hbus h
  refine ⟨hrsp, by rw [hrsp, State.rspValid], fun hnone => ?_, fun v hv => ?_⟩
  · rw [State.rspData, Option.not_isSome_iff_eq_none.mp (ne_true_of_eq_false hnone)]; rfl
  · rw [State.rspData, ← hrsp, hv]; rfl

/-! ### A command waits for the core (R52, R138) -/

/-- While the core is busy a presented command waits: the edge is a hold, and the delay is one edge shorter. -/
theorem step_delayed (s : State) (w : CmdWord) (rest : List Edge) (n : Nat) (hbus : vbusValid s.vbus = false)
    (hport : s.port = commandEdge w :: rest) (hwait : s.waiting = none ∨ s.waiting = some w)
    (hbusy : s.busy = n + 1) :
    step s = .next s.clocked ∧ s.clocked.port = rest ∧ s.clocked.busy = n ∧ s.clocked.waiting = some w := by
  have hedge : s.edge = commandEdge w := edge_of_port s _ rest hport
  have hready := cmdReady_of_busy s (by omega)
  have hkeeps : s.breaksHandshake = false := breaksHandshake_eq_false s (.inr (by rw [hedge]; exact hwait))
  refine ⟨step_hold s hbus (by rw [hedge]; rfl) hkeeps (accepts_of_not_cmdReady s hready), ?_, ?_, ?_⟩
  · rw [State.clocked_port, hport, List.tail_cons]
  · rw [State.clocked_busy, State.nextBusy, hbusy]; rfl
  · rw [State.clocked_waiting, State.nextWaiting, hready, hedge]; rfl

/-- By induction on the delay `n`: each busy edge is a hold that leaves the seven items. -/
theorem run_presented (n : Nat) (s : State) (w : CmdWord) (i : Instr) (rest : List Edge)
    (hbus : vbusValid s.vbus = false) (hport : s.port = List.replicate (n + 1) (commandEdge w) ++ rest)
    (hwait : s.waiting = none ∨ s.waiting = some w) (hdec : decodeCmd w = .ok i) (hbusy : s.busy = n) :
    ∃ u, SameCore s u ∧ u.port = rest ∧ Host.Core.run Sys2Proof.core (n + 1) s = exec i u := by
  induction n generalizing s with
  | zero =>
    refine ⟨_, ?_, ?_, (run_one s).trans (stepRunsDecodedCommand s _ rest i hbus hport rfl rfl hbusy hwait hdec)⟩
    · exact ⟨rfl, rfl, rfl, rfl, rfl, rfl, rfl, rfl⟩
    · rfl
  | succ n ih =>
    obtain ⟨hstep, hport', hbusy', hwait'⟩ := step_delayed s w _ n hbus hport hwait hbusy
    obtain ⟨u, hcore, hrest, hrun⟩ := ih s.clocked hbus hport' (.inr hwait') hbusy'
    exact ⟨u, hcore, hrest, (run_succ_of_next s _ (n + 1) hstep).trans hrun⟩

/-- Settles O45. -/
theorem presentedCommandIsAccepted : Obligations.PresentedCommandIsAccepted := by
  unfold Obligations.PresentedCommandIsAccepted
  exact fun s w i rest hbus hport hwait hdec => run_presented s.busy s w i rest hbus hport hwait hdec rfl

end Sys2Proof.Machine
end

section
/-!
The unpacker family (spec/40_unpacker.md): FEED in each of its three phases (O7 to O9), and the cycle in which the
phases follow each other (O10).
-/

namespace Sys2Proof.Machine

open Sys2Proof Sys2Proof.Safety

/-- Settles O7. -/
theorem feedPhaseAKeepsByte : Obligations.FeedPhaseAKeepsByte := by
  unfold Obligations.FeedPhaseAKeepsByte
  exact fun s b hbits => exec_feed_zero b s hbits

/-- A FEED that answers a value leaves the trackers as CONSIDER and RECORD of it do, and the ports alone (R67, R72). -/
theorem feed_of_rsp_some (b : Byte) (s t : State) (v : Value) (h : exec (.feed b) s = .next t)
    (hv : t.rsp = some v) :
    ∃ u, execAll [.consider v, .record v] s = .next u ∧ SameTrackers u t ∧ SamePorts s t ∧ t.cfg = s.cfg := by
  obtain ⟨hsome, -⟩ := feedHandsValueToTrackers s t b h
  obtain ⟨u, hu, htrackers⟩ := hsome v hv
  obtain ⟨hcfg, hports⟩ := exec_frame (.feed b) s t h
  exact ⟨u, hu, htrackers, hports, hcfg⟩

/-- Settles O8. -/
theorem feedPhaseBEmits : Obligations.FeedPhaseBEmits := by
  unfold Obligations.FeedPhaseBEmits
  intro s b hbits
  have hfeed := exec_feed_eight b s hbits
  obtain ⟨u, hrest⟩ := feed_of_rsp_some b s _ (phaseBValue s.pendingValue b) hfeed rfl
  exact ⟨_, _, u, phaseBValue_toNat s.pendingValue b, hfeed, rfl, keptNibble_toNat b, rfl, hrest⟩

/-- Settles O9. -/
theorem feedPhaseCEmits : Obligations.FeedPhaseCEmits := by
  unfold Obligations.FeedPhaseCEmits
  intro s b hbits
  have hfeed := exec_feed_four b s hbits
  obtain ⟨u, hrest⟩ := feed_of_rsp_some b s _ (phaseCValue s.pendingValue b) hfeed rfl
  exact ⟨_, _, u, phaseCValue_toNat s.pendingValue b, hfeed, rfl, rfl, rfl, hrest⟩

/-- Settles O10: one case for each phase. -/
theorem feedPhaseCycle : Obligations.FeedPhaseCycle := by
  unfold Obligations.FeedPhaseCycle
  intro s b
  cases hbits : s.pendingBits with
  | zero => exact ⟨_, exec_feed_zero b s hbits, fun _ => ⟨rfl, rfl⟩, nofun, nofun⟩
  | eight => exact ⟨_, exec_feed_eight b s hbits, nofun, fun _ => ⟨rfl, rfl⟩, nofun⟩
  | four => exact ⟨_, exec_feed_four b s hbits, nofun, nofun, fun _ => ⟨rfl, rfl⟩⟩

end Sys2Proof.Machine
end

section
/-!
The Top-K family (spec/41_topk.md): the insertion index as a count of smaller entries (O15), CONSIDER slot by slot
(O14, O16, O17, O25), what it does to the collection as a list (O18, O19, O21), and that the side on which equal
entries are passed does not matter (O24).
-/

namespace Sys2Proof.Machine

open Sys2Proof Sys2Proof.Safety

/-! ### The insertion index (R81) -/

/-- The indices below `n` that satisfy a downward closed predicate are those below their number. -/
theorem lt_length_filter_range_iff (p : Nat → Bool) (n : Nat)
    (hdown : ∀ i j, i ≤ j → j < n → p j = true → p i = true) (i : Nat) (hi : i < n) :
    i < ((List.range n).filter p).length ↔ p i = true := by
  induction n with
  | zero => omega
  | succ n ih =>
    rw [List.range_succ, List.filter_append, List.length_append]
    cases hp : p n with
    | true =>
      have hall : (List.range n).filter p = List.range n := List.filter_eq_self.mpr fun j hj =>
        hdown j n (Nat.le_of_lt (List.mem_range.mp hj)) n.lt_succ_self hp
      have hpi : p i = true := hdown i n (by omega) n.lt_succ_self hp
      simp [hall, hp, hpi, hi]
    | false =>
      have hle : ((List.range n).filter p).length ≤ n := (List.length_filter_le _ _).trans_eq List.length_range
      have hnone : [n].filter p = [] := by simp [hp]
      rw [hnone, List.length_nil, Nat.add_zero]
      obtain hlt | rfl := Nat.lt_succ_iff_lt_or_eq.mp hi
      · exact ih (fun i j hij hj => hdown i j hij (by omega)) hlt
      · rw [hp]; exact iff_of_false (Nat.not_lt.mpr hle) nofun

theorem lt_countBelow_iff (s : State) (v : Value) (h : Sorted s) (j : Nat) (hj : j < s.topCount) :
    j < countBelow s v ↔ s.topSlot j < v := by
  refine (lt_length_filter_range_iff _ _ (fun i k hik hk hlt => ?_) j hj).trans decide_eq_true_iff
  exact decide_eq_true (Std.lt_of_le_of_lt (topSlot_mono s h i k hik hk) (of_decide_eq_true hlt))

theorem lt_countUpTo_iff (s : State) (v : Value) (h : Sorted s) (j : Nat) (hj : j < s.topCount) :
    j < countUpTo s v ↔ s.topSlot j ≤ v := by
  refine (lt_length_filter_range_iff _ _ (fun i k hik hk hle => ?_) j hj).trans decide_eq_true_iff
  exact decide_eq_true (BitVec.le_trans (topSlot_mono s h i k hik hk) (of_decide_eq_true hle))

theorem countUpTo_le_topCount (s : State) (v : Value) : countUpTo s v ≤ s.topCount :=
  (List.length_filter_le _ _).trans_eq List.length_range

theorem countBelow_le_countUpTo (s : State) (v : Value) : countBelow s v ≤ countUpTo s v := by
  unfold countBelow countUpTo
  rw [← List.countP_eq_length_filter, ← List.countP_eq_length_filter]
  exact List.countP_mono_left fun i _ hlt => decide_eq_true (BitVec.le_of_lt (of_decide_eq_true hlt))

theorem countBelow_le_topCount (s : State) (v : Value) : countBelow s v ≤ s.topCount :=
  (countBelow_le_countUpTo s v).trans (countUpTo_le_topCount s v)

/-- In a sorted collection the scan passes exactly the entries smaller than `v`. -/
theorem insertionIndex_eq_countBelow (s : State) (v : Value) (h : Sorted s) :
    insertionIndex s.top v s.topCount = countBelow s v := by
  have hidx := insertionIndex_bound s.top v s.topCount
  have hcount := countBelow_le_topCount s v
  apply Nat.le_antisymm
  · by_contra hlt
    have hpassed : s.topSlot (countBelow s v) < v := below_insertionIndex s.top v s.topCount _ (by omega)
    exact Nat.lt_irrefl _ ((lt_countBelow_iff s v h _ (by omega)).mpr hpassed)
  · by_contra hlt
    have hstop := at_insertionIndex s.top v s.topCount (by omega)
    exact hstop ((lt_countBelow_iff s v h _ (by omega)).mp (by omega))

/-- A value greater than the minimum of a full collection has an entry before it (R83). -/
theorem insertionIndex_pos_of_full (s : State) (v : Value) (hk : s.topCount = s.K) (hv : s.topSlot 0 < v) :
    1 ≤ insertionIndex s.top v s.topCount :=
  insertionIndex_pos s.top v s.topCount (hk ▸ s.K_pos) hv

/-- Settles O15. -/
theorem insertionIndexIsFirstNotSmaller : Obligations.InsertionIndexIsFirstNotSmaller := by
  unfold Obligations.InsertionIndexIsFirstNotSmaller
  exact fun s v => ⟨insertionIndex_bound s.top v s.topCount, below_insertionIndex s.top v s.topCount,
    fun hlt => BitVec.not_lt.mp (at_insertionIndex s.top v s.topCount hlt), insertionIndex_eq_countBelow s v⟩

/-! ### CONSIDER, slot by slot (R79, R82, R83, R85) -/

theorem getD_top_considered_grow (s : State) (v : Value) (hlen : s.top.length = s.K) (hk : s.topCount < s.K)
    (j : Nat) :
    (s.considered v).top.getD j none =
      if j = insertionIndex s.top v s.topCount then some v
      else if insertionIndex s.top v s.topCount < j ∧ j ≤ s.topCount then s.top.getD (j - 1) none
      else s.top.getD j none := by
  rw [s.considered_grow v hk]
  exact getD_growAt _ _ _ _ _ (by omega) (insertionIndex_bound s.top v s.topCount)

theorem getD_top_considered_replace (s : State) (v : Value) (hlen : s.top.length = s.K) (hk : s.topCount = s.K)
    (hv : s.topSlot 0 < v) (j : Nat) :
    (s.considered v).top.getD j none =
      if j + 1 = insertionIndex s.top v s.topCount then some v
      else if j + 1 < insertionIndex s.top v s.topCount then s.top.getD (j + 1) none
      else s.top.getD j none := by
  have hidx := insertionIndex_bound s.top v s.topCount
  have hpos := insertionIndex_pos_of_full s v hk hv
  rw [s.considered_replace v hk hv, State.setTop_top, getD_replaceAt _ _ _ _ hpos (by omega)]
  simp only [Nat.lt_sub_iff_add_lt, show j = insertionIndex s.top v s.topCount - 1 ↔
    j + 1 = insertionIndex s.top v s.topCount by omega]

/-- Settles O16. -/
theorem considerGrows : Obligations.ConsiderGrows := by
  unfold Obligations.ConsiderGrows
  intro s v hlen hk
  have hidx := insertionIndex_bound s.top v s.topCount
  refine ⟨(s.considered v).top, ?_, ?_, fun j => ?_⟩
  · rw [s.considered_grow v hk]; simpa using hlen
  · rw [exec_consider, s.considered_grow v hk]; rfl
  · rw [getD_top_considered_grow s v hlen hk j]
    refine ⟨fun hj => ?_, fun hj => if_pos hj, fun hj hjn => ?_, fun hj => ?_⟩
    · rw [if_neg (by omega), if_neg (by omega)]
    · rw [if_neg (by omega), if_pos ⟨hj, hjn⟩]
    · rw [if_neg (by omega), if_neg (by omega)]

/-- Settles O17. -/
theorem considerReplacesMinimum : Obligations.ConsiderReplacesMinimum := by
  unfold Obligations.ConsiderReplacesMinimum
  intro s v hlen hk hv
  refine ⟨(s.considered v).top, ?_, ?_, insertionIndex_pos_of_full s v hk hv, fun j => ?_⟩
  · rw [s.considered_replace v hk hv]; simpa using hlen
  · rw [exec_consider, s.considered_replace v hk hv]; rfl
  · rw [getD_top_considered_replace s v hlen hk hv j]
    refine ⟨fun hj => ?_, fun hj => if_pos hj, fun hj => ?_⟩
    · rw [if_neg (by omega), if_pos hj]
    · rw [if_neg (by omega), if_neg (by omega)]

/-- Settles O14: it is the grow case with no entry to shift (R85). -/
theorem considerIntoEmpty : Obligations.ConsiderIntoEmpty := by
  unfold Obligations.ConsiderIntoEmpty
  intro s v hempty hlen
  have hK := s.K_pos
  constructor
  · rw [exec_consider, s.considered_grow v (by omega), hempty]; rfl
  · rw [getD_set _ _ _ _ (by omega), if_pos rfl]

/-- Settles O18: the FEED hands the value to CONSIDER, which discards it, and to RECORD (R72). -/
theorem considerDiscards : Obligations.ConsiderDiscards := by
  unfold Obligations.ConsiderDiscards
  intro s v hk hv
  have hself : s.considered v = s := s.considered_discard v hk (BitVec.not_lt.mpr hv)
  refine ⟨by rw [exec_consider, hself], fun b t hfeed hrsp => ?_⟩
  obtain ⟨u, hu, ⟨htop, hcount, hlast, -, -⟩, -, -⟩ := feed_of_rsp_some b s t v hfeed hrsp
  obtain rfl : (s.considered v).recorded v = u := by injection hu
  rw [hself] at htop hcount hlast
  exact ⟨htop, hcount, hlast⟩

/-! ### The comparator form (R89) -/

/-- The comparator bits are a run of ones below the insertion index, then zeros. -/
theorem ltBit_iff_lt_insertionIndex (s : State) (v : Value) (h : Sorted s) (j : Nat) :
    ltBit s v j ↔ j < insertionIndex s.top v s.topCount := by
  have hidx := insertionIndex_bound s.top v s.topCount
  constructor
  · intro ⟨hj, hlt⟩
    rw [insertionIndex_eq_countBelow s v h]
    exact (lt_countBelow_iff s v h j hj).mpr hlt
  · intro hj
    exact ⟨by omega, below_insertionIndex s.top v s.topCount j hj⟩

/-- Settles O25: with each bit read as a comparison with the insertion index, the tables are R82 and R83. -/
theorem comparatorFormAgrees : Obligations.ComparatorFormAgrees := by
  unfold Obligations.ComparatorFormAgrees
  intro s v ⟨⟨hlen, hn, _⟩, hs⟩
  have hidx := insertionIndex_bound s.top v s.topCount
  have hK := s.K_pos
  have hcount := considered_topCount s v hn
  have hzero (hk : s.topCount = s.K) : ltBit s v 0 ↔ s.topSlot 0 < v := and_iff_right (by omega)
  simp only [ltBit_iff_lt_insertionIndex s v hs] at hzero ⊢
  refine ⟨_, exec_consider v s, fun i j hij hj => by omega, insertionIndex_eq_countBelow s v hs,
    fun hk => ⟨by omega, fun j => ?_⟩, fun hk hv => ⟨by omega, fun j hj => ?_⟩, fun hk hv => ?_⟩
  · rw [getD_top_considered_grow s v hlen hk j]
    refine ⟨fun _ hlt => ?_, fun _ hge hfirst => ?_, fun hjn hge hpos hge' => ?_, fun hj => ?_⟩
    · rw [if_neg (by omega), if_neg (by omega)]
    · rw [if_pos (by omega)]
    · rw [if_neg (by omega), if_pos (by omega)]
    · rw [if_neg (by omega), if_neg (by omega)]
  · rw [getD_top_considered_replace s v hlen hk ((hzero hk).mp hv) j]
    refine ⟨fun hge => ?_, fun hlt hlast => ?_, fun _ _ hlt => ?_⟩
    · rw [if_neg (by omega), if_neg (by omega)]
    · rw [if_pos (by omega)]
    · rw [if_neg (by omega), if_pos hlt]
  · exact s.considered_discard v hk (mt (hzero hk).mpr hv)

/-! ### The collection as a list (R80, R87) -/

theorem topValues_eq_topSlot_zero_cons (s : State) (h : 0 < s.topCount) : ∃ l, s.topValues = s.topSlot 0 :: l := by
  obtain ⟨n, hn⟩ := Nat.exists_eq_succ_of_ne_zero (Nat.ne_of_gt h)
  exact ⟨_, by rw [State.topValues, hn, List.range_succ_eq_map, List.map_cons]⟩

/-- A qualifying value enters once: at capacity the entry it drives out is the minimum, which is smaller. -/
theorem count_topValues_considered (s : State) (v : Value) (h : FilledTo s.top s.K s.topCount)
    (hq : s.topCount < s.K ∨ s.topSlot 0 < v) :
    (s.considered v).topValues.count v = s.topValues.count v + 1 := by
  have hn : s.topCount ≤ s.K := h.2.1
  have hK := s.K_pos
  rw [topValues_considered s v h]
  by_cases hk : s.topCount < s.K
  · rw [Nat.sub_eq_zero_of_le hk, List.drop_zero, List.orderedInsert_count, if_pos rfl]
  · have hv : s.topSlot 0 < v := hq.resolve_left hk
    obtain ⟨l, hl⟩ := topValues_eq_topSlot_zero_cons s (by omega)
    have hone : s.topCount + 1 - s.K = 1 := by omega
    have hne : s.topSlot 0 ≠ v := fun heq => BitVec.lt_irrefl v (heq ▸ hv)
    rw [hone, hl, List.orderedInsert_of_not_le _ l (BitVec.not_le.mpr hv), List.drop_succ_cons, List.drop_zero,
      List.orderedInsert_count, if_pos rfl, List.count_cons_of_ne hne]

/-- Settles O19. -/
theorem qualificationTest : Obligations.QualificationTest := by
  unfold Obligations.QualificationTest
  intro s v ⟨hf, _⟩
  have hn : s.topCount ≤ s.K := hf.2.1
  refine ⟨_, exec_consider v s, count_topValues_considered s v hf, fun hq => ?_⟩
  obtain ⟨hk, hv⟩ := not_or.mp hq
  exact s.considered_discard v (by omega) hv

/-- Settles O21. -/
theorem considerKeepsLargest : Obligations.ConsiderKeepsLargest := by
  unfold Obligations.ConsiderKeepsLargest
  intro s v vs ⟨hf, _⟩ hvs
  refine ⟨_, exec_consider v s, ?_⟩
  rw [topValues_considered s v hf, largest_append_singleton, ← hvs, topValues_length]

/-! ### Ties (R86) -/

theorem slots_ext (a b : List Slot) (hlen : a.length = b.length) (h : ∀ j, a.getD j none = b.getD j none) :
    a = b :=
  List.ext_getElem hlen fun j ha hb => by
    rw [← List.getD_eq_getElem a none ha, ← List.getD_eq_getElem b none hb, h j]

/-- Growing on either side of a slot that holds `v` gives the same array. -/
theorem growAt_succ_of_tie (a : List Slot) (i n : Nat) (v : Value) (hn : n < a.length) (hi : i < n)
    (htie : a.getD i none = some v) : growAt a i n v = growAt a (i + 1) n v := by
  refine slots_ext _ _ (by simp) fun j => ?_
  rw [getD_growAt _ _ _ _ _ hn (by omega), getD_growAt _ _ _ _ _ hn hi]
  obtain rfl | rfl | ⟨hne, hne'⟩ : j = i ∨ j = i + 1 ∨ (j ≠ i ∧ j ≠ i + 1) := by omega
  · rw [if_pos rfl, if_neg (by omega), if_neg (by omega), htie]
  · rw [if_neg (by omega), if_pos (by omega), if_pos rfl, Nat.add_sub_cancel, htie]
  · rw [if_neg hne, if_neg hne']
    simp only [show i < j ↔ i + 1 < j by omega]

/-- Replacing on either side of a slot that holds `v` gives the same array. -/
theorem replaceAt_succ_of_tie (a : List Slot) (i : Nat) (v : Value) (hpos : 1 ≤ i) (hi : i < a.length)
    (htie : a.getD i none = some v) : replaceAt a i v = replaceAt a (i + 1) v := by
  refine slots_ext _ _ (by simp) fun j => ?_
  rw [getD_replaceAt _ _ _ _ hpos (by omega), getD_replaceAt a (i + 1) _ _ (by omega) hi,
    Nat.add_sub_cancel]
  obtain rfl | rfl | ⟨hne, hne'⟩ : i = j + 1 ∨ j = i ∨ (i ≠ j + 1 ∧ j ≠ i) := by omega
  · rw [if_pos (by omega), if_neg (by omega), if_pos (by omega), htie]
  · rw [if_neg (by omega), if_neg (by omega), if_pos rfl, htie]
  · rw [if_neg (by omega), if_neg hne']
    simp only [show j < i - 1 ↔ j < i by omega]

/-- The slots between the two counts hold `v`. -/
theorem top_getD_of_tie (s : State) (v : Value) (h : TopInv s) (j : Nat) (hbelow : countBelow s v ≤ j)
    (hupTo : j < countUpTo s v) : s.top.getD j none = some v := by
  obtain ⟨hf, hs⟩ := h
  have hj : j < s.topCount := Nat.lt_of_lt_of_le hupTo (countUpTo_le_topCount s v)
  have hge : v ≤ s.topSlot j :=
    BitVec.not_lt.mp fun hlt => Nat.not_lt.mpr hbelow ((lt_countBelow_iff s v hs j hj).mpr hlt)
  have hle : s.topSlot j ≤ v := (lt_countUpTo_iff s v hs j hj).mp hupTo
  rw [top_getD s hf j hj, BitVec.le_antisymm hle hge]

theorem growAt_countBelow_eq_countUpTo (s : State) (v : Value) (h : TopInv s) (hk : s.topCount < s.K) :
    growAt s.top (countBelow s v) s.topCount v = growAt s.top (countUpTo s v) s.topCount v := by
  have hlen : s.top.length = s.K := h.1.1
  have hupTo := countUpTo_le_topCount s v
  refine Nat.decreasingInduction' (fun m hm hbelow ih => ?_) (countBelow_le_countUpTo s v) rfl
  exact (growAt_succ_of_tie _ _ _ _ (by omega) (by omega) (top_getD_of_tie s v h m hbelow hm)).trans ih

theorem replaceAt_countBelow_eq_countUpTo (s : State) (v : Value) (h : TopInv s)
    (hpos : 1 ≤ countBelow s v) : replaceAt s.top (countBelow s v) v = replaceAt s.top (countUpTo s v) v := by
  have ⟨⟨hlen, hn, _⟩, _⟩ := h
  have hupTo := countUpTo_le_topCount s v
  refine Nat.decreasingInduction' (fun m hm hbelow ih => ?_) (countBelow_le_countUpTo s v) rfl
  exact (replaceAt_succ_of_tie _ _ _ (by omega) (by omega) (top_getD_of_tie s v h m hbelow hm)).trans ih

/-- Settles O24: `v` is moved across equal entries one at a time, and each move leaves the array. -/
theorem tieSideDoesNotMatter : Obligations.TieSideDoesNotMatter := by
  unfold Obligations.TieSideDoesNotMatter
  intro s v h
  have hidx := insertionIndex_eq_countBelow s v h.2
  refine ⟨fun hk => ?_, fun hk hv => ?_⟩
  · have htie := growAt_countBelow_eq_countUpTo s v h hk
    exact ⟨htie, by rw [exec_consider, s.considered_grow v hk, hidx, htie]; rfl⟩
  · have hpos := insertionIndex_pos_of_full s v hk hv
    have htie := replaceAt_countBelow_eq_countUpTo s v h (hidx ▸ hpos)
    exact ⟨htie, by rw [exec_consider, s.considered_replace v hk hv, hidx, htie]; rfl⟩

end Sys2Proof.Machine
end

section
/-!
The Last-K family (spec/42_lastk.md): RECORD slot by slot, with its cursor and count (O26), and the window of the
latest values it keeps (O27).
-/

namespace Sys2Proof.Machine

open Sys2Proof Sys2Proof.Safety

/-! ### The write, the cursor and the count (R92 to R94) -/

/-- Advancing a cursor modulo the capacity is a step of one with a wrap to 0 (R93). -/
theorem succ_mod_capacity (c k : Nat) (h : c < k) : (c + 1) % k = if c + 1 < k then c + 1 else 0 := by
  obtain hlt | rfl := Nat.lt_or_eq_of_le (Nat.succ_le_of_lt h)
  · rw [if_pos hlt, Nat.mod_eq_of_lt hlt]
  · rw [if_neg (Nat.lt_irrefl _), Nat.mod_self]

/-- A count that saturates at the capacity, as a comparison (R94). -/
theorem succ_min_capacity (n k : Nat) : min (n + 1) k = if n < k then n + 1 else k := by
  split <;> omega

/-- Settles O26. -/
theorem recordOverwritesAtCursor : Obligations.RecordOverwritesAtCursor := by
  unfold Obligations.RecordOverwritesAtCursor
  intro s v hlen hcursor _
  have hget (j : Nat) := getD_set s.last s.lastCursor j (some v) (hlen ▸ hcursor)
  refine ⟨s.last.set s.lastCursor (some v), by rw [List.length_set, hlen], ?_, fun j hj => ?_, ?_⟩
  · rw [hget, if_pos rfl]
  · rw [hget, if_neg hj]
  · rw [exec_record, ← succ_mod_capacity _ _ hcursor, ← succ_min_capacity]; rfl

/-! ### The window of the latest values (R95 to R97) -/

/-- A full buffer drops exactly its oldest value. -/
theorem lastValues_recorded_of_full (s : State) (v : Value) (h : LastInv s) (hk : s.lastCount = s.K) :
    (s.recorded v).lastValues = s.lastValues.tail ++ [v] := by
  have hne : s.lastValues ≠ [] := by
    rw [← List.length_pos_iff, lastValues_length, hk]; exact s.K_pos
  rw [lastValues_recorded s v h, hk, Nat.add_sub_cancel_left, List.drop_one, List.tail_append_of_ne_nil hne]

/-- A buffer with room keeps every value. -/
theorem lastValues_recorded_of_not_full (s : State) (v : Value) (h : LastInv s) (hk : s.lastCount < s.K) :
    (s.recorded v).lastValues = s.lastValues ++ [v] := by
  rw [lastValues_recorded s v h, Nat.sub_eq_zero_of_le hk, List.drop_zero]

/-- Settles O27. -/
theorem recordKeepsWindow : Obligations.RecordKeepsWindow := by
  unfold Obligations.RecordKeepsWindow
  intro s v vs h hvs
  refine ⟨_, exec_record v s, lastInv_recorded s v h, ?_, lastValues_recorded_of_full s v h,
    lastValues_recorded_of_not_full s v h⟩
  rw [lastValues_recorded s v h, latest_append_singleton, ← hvs, lastValues_length]

end Sys2Proof.Machine
end

section
/-!
The readout family (spec/43_readout.md): RDTOP answers an entry of the Top-K collection below the count and nothing
at or beyond it (O29).
-/

namespace Sys2Proof.Machine

open Sys2Proof Sys2Proof.Safety

theorem readTop_of_le (s : State) (i : Nat) (hi : s.topCount ≤ i) : s.readTop i = none :=
  if_neg (Nat.not_lt_of_le hi)

/-- Settles O29: below the count the invariant fills the slot, so the answer is the entry stored there (R100). -/
theorem rdtopAnswersEntry : Obligations.RdtopAnswersEntry := by
  unfold Obligations.RdtopAnswersEntry
  intro s i ⟨hfilled, _⟩
  refine ⟨fun hlt => ⟨s.topSlot i.toNat, top_getD s hfilled i.toNat hlt, ?_⟩, fun hge => ?_⟩
  · rw [exec_rdtop, readTop_of_lt s i.toNat hlt]; rfl
  · rw [exec_rdtop, readTop_of_le s i.toNat hge]; rfl

end Sys2Proof.Machine
end

section
/-!
The control family (spec/44_control.md): an edge without an accepted command is a hold (O41), and NOP leaves the
state as such an edge does (O34).
-/

namespace Sys2Proof.Machine

open Sys2Proof Sys2Proof.Safety

/-- What passes at the ports touches none of the seven items. -/
theorem sameCore_clocked (s : State) : SameCore s s.clocked := ⟨rfl, rfl, rfl, rfl, rfl, rfl, rfl, rfl⟩

theorem accepts_of_not_cmdValid_or_not_cmdReady (s : State) (h : s.edge.cmdValid = false ∨ s.cmdReady = false) :
    s.accepts = false :=
  h.elim (accepts_of_not_cmdValid s) (accepts_of_not_cmdReady s)

theorem nextWaiting_of_not_cmdReady (s : State) (hrst : s.edge.rst = false) (hvalid : s.edge.cmdValid = true)
    (hready : s.cmdReady = false) : s.nextWaiting = some s.edge.cmd := by
  simp [State.nextWaiting, hrst, hvalid, hready]

theorem nextWaiting_of_not_cmdValid (s : State) (hvalid : s.edge.cmdValid = false) : s.nextWaiting = none := by
  simp [State.nextWaiting, hvalid]

/-- Settles O41: the edge passes at the ports and nothing else happens. -/
theorem holdWithoutAcceptance : Obligations.HoldWithoutAcceptance := by
  unfold Obligations.HoldWithoutAcceptance
  intro s hbus hrst hnone hkeeps
  have hstep : step s = .next s.clocked :=
    step_hold s hbus hrst (breaksHandshake_eq_false s hkeeps) (accepts_of_not_cmdValid_or_not_cmdReady s hnone)
  exact ⟨s.clocked, hstep, sameCore_clocked s, rfl, rfl, nextWaiting_of_not_cmdReady s hrst,
    nextWaiting_of_not_cmdValid s⟩

/-- Settles O34: an edge without a command is a case of O41. -/
theorem nopIsHold : Obligations.NopIsHold := by
  unfold Obligations.NopIsHold
  refine fun s => ⟨exec_nop s, fun hbus hrst hvalid => ?_⟩
  obtain ⟨t, hstep, hcore, hrsp, -⟩ := holdWithoutAcceptance s hbus hrst (.inl hvalid) (.inl hvalid)
  exact ⟨t, hstep, hcore, hrsp⟩

end Sys2Proof.Machine
end
